-- ==== Sys2Proof/Word.lean ====
section
/-! DEFINITION. The two word types of the machine: the byte, which is what every memory cell, register and operand is
(spec/10_state.md R20, R29), and the nine-bit program counter (spec/10_state.md R25). -/

namespace Sys2Proof

/-- An unsigned 8-bit value: a memory cell, a register, an opcode or operand byte (00_scope.md R10). -/
abbrev Byte := BitVec 8

/-- The program counter's type: nine bits, which hold its values 0 to 256 (10_state.md R25, parameter `PC_BITS`). -/
abbrev ProgramCounter := BitVec 9

end Sys2Proof
end

