-- ==== Sys2Proof/Config.lean ====
section
/-! DEFINITION. The hardware's fixed parameters (spec/00_scope.md R9). All of them are constants; the one open parameter,
the program image, is an argument of the load port (Machine/Ports.lean). The spec leaves no value of a run open, so there
is no free value here. -/

namespace Sys2Proof.Config

/-- `MEM_SIZE`: the number of memory cells; addresses are 0 to 255 (00_scope.md R9, 20_memory.md R40). -/
def memSize : Nat := 256

/-- `SP_INDEX`: the register reserved by convention as stack pointer (00_scope.md R9, 10_state.md R20). -/
def spIndex : Fin 8 := 7

/-- `PC_RESET`: the value of `pc` after reset (00_scope.md R9, 10_state.md R34). -/
def pcReset : ProgramCounter := 0

/-- What a memory cell holds at reset, and so what an address that memory does not list reads as (10_state.md R29, R34). -/
def cellReset : Byte := 0

end Sys2Proof.Config
end

