-- ==== Sys2Proof/Machine/State.lean ====
section
/-! DEFINITION. The machine's state as plain data: the tuple of spec/10_state.md with the observation `out`, the state
after reset, and the two reasons a step can end without a next state. -/

namespace Sys2Proof.Machine

/-- The ALU's closed set of operation kinds (44_alu_mul.md R119). Only `add` and `mul` have a result. -/
inductive AluOp where
  | add
  | mul
  | sub
  | inc
  | dec
  | cmp
  deriving DecidableEq, Repr

/-- The four kinds of fatal condition, each with its datum (00_scope.md R13, 10_state.md R27, 60_exceptions.md R140 to
R143). They are values of the state's fault record: raising one is a next state (`State.raise`), not an outcome of its
own. -/
inductive FaultKind where
  /-- The dispatch multiplexer has no entry for the opcode byte (60_exceptions.md R140). -/
  | unrecognizedOpcode (byte : Byte)
  /-- The ALU was given a kind outside its implemented set (60_exceptions.md R141). -/
  | unsupportedOperation (op : AluOp)
  /-- A memory access at an address of 256 or more (60_exceptions.md R142). -/
  | memoryAddressOutOfRange (address : Nat)
  /-- An operand byte of 8 to 255 in a register position (60_exceptions.md R143). -/
  | registerIndexOutOfRange (operand : Byte)
  deriving DecidableEq, Repr

/-- The register file: eight unsigned 8-bit cells (10_state.md R20). -/
abbrev Regs := Vector Byte 8

/-- Memory as the cells that differ from the reset contents, by strictly rising address (`Memory.wf`). -/
abbrev Memory := List Host.Cell

/-- The machine state (10_state.md, head): `(x[0..7], pc, running, fault, mem[0..255])` and the observation `out`. -/
structure State where
  /-- `x[0]` to `x[7]` (10_state.md R20). -/
  regs : Regs
  /-- The program counter (10_state.md R23, R25). -/
  pc : ProgramCounter
  /-- The run-state bit: true is RUNNING, false is HALTED (10_state.md R26). -/
  running : Bool
  /-- The fault record; `none` at reset and after a clean halt (10_state.md R27). -/
  fault : Option FaultKind
  /-- The 256 memory cells (10_state.md R29). -/
  mem : Memory
  /-- The values emitted by `PRN` since reset, oldest first (10_state.md R30). -/
  out : List Byte
  deriving DecidableEq, Repr

/-- Why a step answers no next state. -/
inductive Fault where
  /-- The machine is halted, so there is no cycle to perform (10_state.md R26, 40_execution_cycle.md R89). Raised by
  `step` alone, in a state whose `running` is false; no instruction raises it. Safe: the halted state has no step
  (93_implementation_defined.md, end of part 1). -/
  | halted
  deriving DecidableEq, Repr

/-- Why an instruction is given no meaning. -/
inductive Refusal where
  /-- The instruction has no meaning in this model yet. Raised by no arm: every instruction of the table has its
  meaning. Safe: nothing is claimed of a refused instruction. -/
  | notModelled (mnemonic : String)
  deriving DecidableEq, Repr

/-- The state right after reset, before the host loads an image (10_state.md R34, 70_reset_and_hazards.md R165). -/
def State.reset : State where
  regs := Vector.replicate 8 0
  pc := Config.pcReset
  running := true
  fault := none
  mem := []
  out := []

end Sys2Proof.Machine
end

