-- ==== Sys2Proof/Machine/Flags.lean ====
section
/-! DEFINITION. The values the ALU computes (spec/44_alu_mul.md R120). There are NO FLAGS on this machine
(spec/10_state.md R28): overflow is silent, nothing is recorded beside the result, so no flag computation stands here. -/

namespace Sys2Proof.Machine

/-- The exact sum of two unsigned bytes reduced modulo 256 (44_alu_mul.md R116, R120). -/
def sumMod256 (u v : Byte) : Byte := BitVec.ofNat 8 ((u.toNat + v.toNat) % 256)

/-- The exact product of two unsigned bytes reduced modulo 256: its low eight bits (44_alu_mul.md R117, R120). -/
def productMod256 (u v : Byte) : Byte := BitVec.ofNat 8 ((u.toNat * v.toNat) % 256)

end Sys2Proof.Machine
end

