-- ==== Sys2Proof/Machine/Ops.lean ====
section
/-! DEFINITION. The named operations of the machine: the two memory primitives and the canonical form they keep
(spec/20_memory.md R41, R42), raising a fault (spec/00_scope.md R13), the handler contract and its application at step 5
of a cycle (spec/40_execution_cycle.md R80, R86), and the outcome of a step in the halted state. -/

namespace Sys2Proof.Machine

/-! ## Memory -/

/-- The byte at an address: what memory lists there, or the reset contents (10_state.md R29). -/
def Memory.read : Memory → Nat → Byte
  | [], _ => Config.cellReset
  | (b, w) :: rest, a => if a = b then w else Memory.read rest a

/-- Put a byte at an address, keeping the addresses rising and listing no cell that holds the reset contents. -/
def Memory.write : Memory → Nat → Byte → Memory
  | [], a, v => if v = Config.cellReset then [] else [(a, v)]
  | (b, w) :: rest, a, v =>
    if a < b then (if v = Config.cellReset then (b, w) :: rest else (a, v) :: (b, w) :: rest)
    else if a = b then (if v = Config.cellReset then rest else (a, v) :: rest)
    else (b, w) :: Memory.write rest a v

/-- The canonical form from an address on: addresses of that value or more, strictly rising, inside the address space,
and no cell that holds the reset contents. -/
def Memory.wfFrom : Nat → Memory → Bool
  | _, [] => true
  | lo, (a, v) :: rest =>
    decide (lo ≤ a) && decide (a < Config.memSize) && decide (v ≠ Config.cellReset) && Memory.wfFrom (a + 1) rest

/-- The canonical form of memory: equal memories are equal lists. -/
def Memory.wf (m : Memory) : Bool := Memory.wfFrom 0 m

/-- `MemRead(a, 1)` (20_memory.md R41): the byte at `a`, or MemoryAddressOutOfRange at 256 and above; never wrapped. -/
def memRead (m : Memory) (a : Nat) : Except FaultKind Byte :=
  if a < Config.memSize then .ok (Memory.read m a) else .error (.memoryAddressOutOfRange a)

/-- `MemWrite(a, 1, v)` (20_memory.md R42): the changed memory, or MemoryAddressOutOfRange with no cell written. -/
def memWrite (m : Memory) (a : Nat) (v : Byte) : Except FaultKind Memory :=
  if a < Config.memSize then .ok (Memory.write m a v) else .error (.memoryAddressOutOfRange a)

/-- `MemWrite` of consecutive bytes from an address upward, the first byte lowest; a write that is out of range writes
nothing (20_memory.md R42, R45). -/
def writeBytes : Memory → Nat → List Byte → Memory
  | m, _, [] => m
  | m, a, v :: rest =>
    match memWrite m a v with
    | .ok m' => writeBytes m' (a + 1) rest
    | .error _ => writeBytes m (a + 1) rest

/-! ## Faults -/

/-- `raise kind` (00_scope.md R13): `running <- false; fault <- kind`, and nothing else changes. There is no fault entry
beyond this (60_exceptions.md R148) and no return from it (R152). -/
def State.raise (s : State) (k : FaultKind) : State :=
  { s with running := false, fault := some k }

/-! ## Handlers -/

/-- What a handler that raises no fault answers (40_execution_cycle.md R80): the register file it leaves, the value it
emits if it emits one, and the pair `(width, continue)`. -/
structure HandlerResult where
  regs : Regs
  emitted : Option Byte
  width : Nat
  goOn : Bool
  deriving DecidableEq, Repr

/-- Step 5 of a cycle (40_execution_cycle.md R86) with the handler's changes: `running <- continue; pc <- pc + width`. -/
def State.applyResult (s : State) (r : HandlerResult) : State :=
  { s with
    regs := r.regs
    out := s.out ++ r.emitted.toList
    running := r.goOn
    pc := s.pc + BitVec.ofNat 9 r.width }

/-- The end of a cycle that reached a handler: its fault, or its result applied (40_execution_cycle.md R82, R85). -/
def finishCycle (s : State) (h : Except FaultKind HandlerResult) : State :=
  match h with
  | .error k => s.raise k
  | .ok r => s.applyResult r

/-! ## The halted state -/

/-- The outcome of a step in the halted state: no cycle is performed (10_state.md R26, 40_execution_cycle.md R89;
log entry 2). -/
def haltedOutcome (_ : State) : Host.Outcome State Fault Refusal := .fault .halted

end Sys2Proof.Machine
end

