-- ==== Sys2Proof/Machine/Operands.lean ====
section
/-! DEFINITION. The operand forms (spec/30_encoding.md R63, R64): an operand byte as a register index, checked, and the
register file read and written by index. The only other form, the immediate of LDI, is the byte as it stands. -/

namespace Sys2Proof.Machine

/-- An operand byte as a register index (30_encoding.md R63): the whole byte, unsigned, neither masked nor ignored;
8 to 255 raises RegisterIndexOutOfRange(operand) (60_exceptions.md R143). -/
def regIndex (operand : Byte) : Except FaultKind (Fin 8) :=
  if h : operand.toNat < 8 then .ok ⟨operand.toNat, h⟩ else .error (.registerIndexOutOfRange operand)

/-- `x[i]` (00_scope.md R11). No register is hardwired (10_state.md R20). -/
def readReg (x : Regs) (i : Fin 8) : Byte := x[i]

/-- `x[i] <- v` (00_scope.md R11). -/
def writeReg (x : Regs) (i : Fin 8) (v : Byte) : Regs := x.set i v

end Sys2Proof.Machine
end

