-- ==== Sys2Proof/Machine/Alu.lean ====
section
/-! DEFINITION. The arithmetic-logic unit (spec/44_alu_mul.md R115 to R121): `apply(op, reg_a, reg_b)`, a pure transform
of the register file that sees neither memory nor `pc`. -/

namespace Sys2Proof.Machine

/-- An ALU operation with a result: check index `ra`, then `rb`, read both registers, write the result to `x[ra]`
(44_alu_mul.md R116, R117, R121). -/
def aluBinary (f : Byte → Byte → Byte) (x : Regs) (ra rb : Byte) : Except FaultKind Regs :=
  match regIndex ra with
  | .error k => .error k
  | .ok a =>
    match regIndex rb with
    | .error k => .error k
    | .ok b => .ok (writeReg x a (f (readReg x a) (readReg x b)))

/-- `apply(op, ra, rb)`. The kind is examined before the indices, so a kind without a result raises
UnsupportedOperation whatever the indices are (44_alu_mul.md R118). -/
def aluApply (op : AluOp) (x : Regs) (ra rb : Byte) : Except FaultKind Regs :=
  match op with
  | .add => aluBinary sumMod256 x ra rb
  | .mul => aluBinary productMod256 x ra rb
  | .sub => .error (.unsupportedOperation .sub)
  | .inc => .error (.unsupportedOperation .inc)
  | .dec => .error (.unsupportedOperation .dec)
  | .cmp => .error (.unsupportedOperation .cmp)

end Sys2Proof.Machine
end

