-- ==== Sys2Proof/Machine/Arith.lean ====
section
/-! DEFINITION. The arithmetic family: MUL (spec/44_alu_mul.md R122). -/

namespace Sys2Proof.Machine

/-- The handler of `MUL a, b` (44_alu_mul.md R122): the ALU's `MUL` on the two operands; width 3, continue true. -/
def mulHandler (a b : Byte) (x : Regs) : Except FaultKind HandlerResult :=
  match aluApply .mul x a b with
  | .error k => .error k
  | .ok x' => .ok { regs := x', emitted := none, width := 3, goOn := true }

/-- `MUL a, b`: multiply register `a` by register `b`, result in register `a` (44_alu_mul.md R122). -/
def execMul (a b : Byte) (s : State) : Host.Outcome State Fault Refusal :=
  .next (finishCycle s (mulHandler a b s.regs))

end Sys2Proof.Machine
end

