-- ==== Sys2Proof/Machine/Control.lean ====
section
/-! DEFINITION. The control family: HLT (spec/41_hlt.md). -/

namespace Sys2Proof.Machine

/-- The handler of `HLT` (41_hlt.md R100): width 0, continue false, no state mutation. -/
def hltHandler (x : Regs) : Except FaultKind HandlerResult :=
  .ok { regs := x, emitted := none, width := 0, goOn := false }

/-- `HLT`: the cycle ends with `running <- false; pc <- pc + 0` (41_hlt.md R100). -/
def execHlt (s : State) : Host.Outcome State Fault Refusal :=
  .next (finishCycle s (hltHandler s.regs))

end Sys2Proof.Machine
end

