-- ==== Sys2Proof/Machine/Move.lean ====
section
/-! DEFINITION. The data-move family: LDI (spec/42_ldi.md). -/

namespace Sys2Proof.Machine

/-- The handler of `LDI a, b` (42_ldi.md R105): check `a`, then `x[a] <- b`; width 3, continue true. -/
def ldiHandler (a b : Byte) (x : Regs) : Except FaultKind HandlerResult :=
  match regIndex a with
  | .error k => .error k
  | .ok i => .ok { regs := writeReg x i b, emitted := none, width := 3, goOn := true }

/-- `LDI a, b`: load the immediate byte `b` into register `a` (42_ldi.md R105). -/
def execLdi (a b : Byte) (s : State) : Host.Outcome State Fault Refusal :=
  .next (finishCycle s (ldiHandler a b s.regs))

end Sys2Proof.Machine
end

