-- ==== Sys2Proof/Machine/Output.lean ====
section
/-! DEFINITION. The output family: PRN (spec/43_prn.md). -/

namespace Sys2Proof.Machine

/-- The handler of `PRN a` (43_prn.md R110): check `a`, then one `emit(x[a])`; width 2, continue true. -/
def prnHandler (a : Byte) (x : Regs) : Except FaultKind HandlerResult :=
  match regIndex a with
  | .error k => .error k
  | .ok i => .ok { regs := x, emitted := some (readReg x i), width := 2, goOn := true }

/-- `PRN a`: emit the value of register `a` on the output port (43_prn.md R110). -/
def execPrn (a : Byte) (s : State) : Host.Outcome State Fault Refusal :=
  .next (finishCycle s (prnHandler a s.regs))

end Sys2Proof.Machine
end

