-- ==== Sys2Proof/Syntax.lean ====
section
/-! DEFINITION. The instruction set as syntax: one constructor per row of spec/opcode_table.json. Operands are the raw
operand bytes, because decoding does not check register indices (spec/30_encoding.md R73). -/

namespace Sys2Proof

/-- The four dispatched instructions (30_encoding.md R65). There are no others: every other opcode byte is
unrecognised (R66) and the ten declared mnemonics have no dispatch entry (45_unwired.md R130). -/
inductive Instr where
  /-- `HLT`: stop the machine cleanly (41_hlt.md R100). -/
  | hlt
  /-- `LDI a, b`: load the immediate byte `b` into register `a` (42_ldi.md R105). -/
  | ldi (a b : Byte)
  /-- `PRN a`: emit the value of register `a` on the output port (43_prn.md R110). -/
  | prn (a : Byte)
  /-- `MUL a, b`: multiply register `a` by register `b`, result in register `a` (44_alu_mul.md R122). -/
  | mul (a b : Byte)
  deriving DecidableEq, Repr

/-- The instruction formats, named by the number of operand bytes they use (30_encoding.md R60). -/
inductive Format where
  | op0
  | op1
  | op2
  deriving DecidableEq, Repr

/-- The format of each instruction (30_encoding.md R60, R65). -/
def Instr.format : Instr → Format
  | .hlt => .op0
  | .ldi _ _ => .op2
  | .prn _ => .op1
  | .mul _ _ => .op2

/-- Length: the memory bytes an instruction of a format occupies (00_scope.md R17, 30_encoding.md R60). It is not the
width by which `pc` advances: for `HLT` the length is 1 and the width 0 (30_encoding.md R62). -/
def Format.length : Format → Nat
  | .op0 => 1
  | .op1 => 2
  | .op2 => 3

end Sys2Proof
end

