-- ==== Sys2Proof/Machine/Dispatch.lean ====
section
/-! DEFINITION. Steps 4 and 5 of a cycle for each instruction (spec/40_execution_cycle.md R85, R86): one arm per
constructor, each a call of its meaning. Whether the machine is running is step's question, not exec's (log entry 3). -/

namespace Sys2Proof.Machine

def exec (i : Instr) (s : State) : Host.Outcome State Fault Refusal :=
  match i with
  | .hlt => Sys2Proof.Machine.execHlt s
  | .ldi a b => Sys2Proof.Machine.execLdi a b s
  | .prn a => Sys2Proof.Machine.execPrn a s
  | .mul a b => Sys2Proof.Machine.execMul a b s

end Sys2Proof.Machine
end

