-- ==== Sys2Proof/Decode.lean ====
section
/-! DEFINITION. The dispatch multiplexer and the decoder (spec/30_encoding.md R65, R66, R73; spec/40_execution_cycle.md
R81), the encoder, and the reading of an opcode-table word. -/

namespace Sys2Proof

/-- The opcode of a dispatched instruction: the tag the dispatch multiplexer selects by (40_execution_cycle.md R81). -/
inductive Opcode where
  | hlt
  | ldi
  | prn
  | mul
  deriving DecidableEq, Repr

/-- The opcode byte of each dispatched instruction (30_encoding.md R65). -/
def Opcode.byte : Opcode → Byte
  | .hlt => 0b00000001
  | .ldi => 0b10000010
  | .prn => 0b01000111
  | .mul => 0b10100010

/-- The dispatch multiplexer: a fixed function of all eight bits of the opcode byte; a byte without an entry selects
nothing (40_execution_cycle.md R81, 30_encoding.md R65, R66). -/
def dispatch (b : Byte) : Option Opcode :=
  if b = 0x01 then some .hlt
  else if b = 0x82 then some .ldi
  else if b = 0x47 then some .prn
  else if b = 0xA2 then some .mul
  else none

/-- Why three bytes are no instruction: the opcode byte has no dispatch entry (30_encoding.md R66, R73). -/
inductive DecodeError where
  | unrecognized (byte : Byte)
  deriving DecidableEq, Repr

/-- The instruction a selected handler makes of the two operand bytes; a format that does not use an operand byte
ignores it (30_encoding.md R61). -/
def Opcode.withOperands : Opcode → Byte → Byte → Instr
  | .hlt, _, _ => .hlt
  | .ldi, a, b => .ldi a b
  | .prn, a, _ => .prn a
  | .mul, a, b => .mul a b

/-- The decoder of 30_encoding.md R73: total on any three bytes. -/
def decode (b0 b1 b2 : Byte) : Except DecodeError Instr :=
  match dispatch b0 with
  | some op => .ok (op.withOperands b1 b2)
  | none => .error (.unrecognized b0)

/-- The opcode of an instruction (30_encoding.md R65). -/
def Instr.opcode : Instr → Opcode
  | .hlt => .hlt
  | .ldi _ _ => .ldi
  | .prn _ => .prn
  | .mul _ _ => .mul

/-- The encoder: the bytes an instruction occupies, at ascending addresses (30_encoding.md R60, R65). -/
def encode : Instr → List Byte
  | .hlt => [Opcode.hlt.byte]
  | .ldi a b => [Opcode.ldi.byte, a, b]
  | .prn a => [Opcode.prn.byte, a]
  | .mul a b => [Opcode.mul.byte, a, b]

/-- The three bytes at a place in a byte sequence, as the engine fetches them (30_encoding.md R61); none if there are
fewer than three. -/
def window : List Byte → Option (Byte × Byte × Byte)
  | b0 :: b1 :: b2 :: _ => some (b0, b1, b2)
  | _ => none

/-- Byte `k` of a number whose lowest eight bits are byte 0. -/
def byteOf (w k : Nat) : Byte := BitVec.ofNat 8 (w / 2 ^ (8 * k))

/-- The low `nbits` bits of `w` as the three bytes of a fetch window, the first byte lowest; every bit above `nbits`
is 0 (the numbering of spec/opcode_table.json; log entry 9). -/
def tableBytes (nbits w : Nat) : Byte × Byte × Byte :=
  let v := w % 2 ^ nbits
  (byteOf v 0, byteOf v 1, byteOf v 2)

/-- What the decoder reads from an opcode-table word. -/
def decodeTableWord (nbits w : Nat) : Option Instr :=
  let (b0, b1, b2) := tableBytes nbits w
  match decode b0 b1 b2 with
  | .ok i => some i
  | .error _ => none

end Sys2Proof
end

