-- ==== Sys2Proof/Machine/Fetch.lean ====
section
/-! DEFINITION. Steps 1 to 3 of a cycle (spec/40_execution_cycle.md R82 to R84): the three unconditional reads and the
dispatch on the opcode byte; and the storing of an opcode-table word at the program counter. -/

namespace Sys2Proof.Machine

/-- Steps 1 and 2 (40_execution_cycle.md R83): `mem[pc]`, `mem[pc+1]`, `mem[pc+2]`, in that order, always all three.
The addresses are exact: `pc + 1` and `pc + 2` do not wrap (20_memory.md R41). -/
def fetchWindow (s : State) : Except FaultKind (Byte × Byte × Byte) :=
  match memRead s.mem s.pc.toNat with
  | .error k => .error k
  | .ok op =>
    match memRead s.mem (s.pc.toNat + 1) with
    | .error k => .error k
    | .ok a =>
      match memRead s.mem (s.pc.toNat + 2) with
      | .error k => .error k
      | .ok b => .ok (op, a, b)

/-- Steps 1 to 3: the instruction at `pc`, or the fault the fetch or the dispatch raises (40_execution_cycle.md R82,
R84; order, 60_exceptions.md R147). -/
def fetchInstr (s : State) : Except FaultKind Instr :=
  match fetchWindow s with
  | .error k => .error k
  | .ok (op, a, b) =>
    match decode op a b with
    | .error (.unrecognized byte) => .error (.unrecognizedOpcode byte)
    | .ok i => .ok i

/-- `s` with the three bytes of an opcode-table word at `pc`, `pc + 1`, `pc + 2`, where the next cycle fetches. -/
def storeTableWord (s : State) (nbits w : Nat) : State :=
  let (b0, b1, b2) := tableBytes nbits w
  { s with mem := writeBytes s.mem s.pc.toNat [b0, b1, b2] }

end Sys2Proof.Machine
end

