-- ==== Sys2Proof/Machine/Step.lean ====
section
/-! DEFINITION. One cycle (spec/40_execution_cycle.md R82), and a state with a given instruction where it fetches. -/

namespace Sys2Proof.Machine

/-- One cycle, performed only while `running` is true (40_execution_cycle.md R82, 10_state.md R26): fetch and dispatch,
then the handler and its result. A fault of fetch or dispatch is raised, which is a next state (00_scope.md R13). -/
def step (s : State) : Host.Outcome State Fault Refusal :=
  match s.running with
  | false => haltedOutcome s
  | true =>
    match fetchInstr s with
    | .error k => .next (s.raise k)
    | .ok i => exec i s

/-- `s` with the instruction whose bits are `w` stored where `step` fetches its next instruction (log entry 4). -/
def State.withFetchWord (s : State) (nbits w : Nat) : State := storeTableWord s nbits w

end Sys2Proof.Machine
end

