-- ==== Sys2Proof/Machine/Ports.lean ====
section
/-! DEFINITION. The block's external ports as the host sees them (spec/00_scope.md R7, R8): the load port with the first
state of a run (spec/70_reset_and_hazards.md R166), the rendering of the output port (spec/43_prn.md R111) and the codes
of the status port (spec/60_exceptions.md R144). No instruction uses any of them. -/

namespace Sys2Proof.Machine

/-- Load port (00_scope.md R7, 70_reset_and_hazards.md R166): image byte `i` to address `i`; an image of more than 256
bytes is refused at the boundary. The load changes nothing but memory. -/
def State.load (s : State) (image : List Byte) : Option State :=
  if image.length ≤ Config.memSize then some { s with mem := writeBytes s.mem 0 image } else none

/-- The first state of a run: reset, then load (70_reset_and_hazards.md R166). -/
def firstState (image : List Byte) : Option State := State.reset.load image

/-- The decimal numeral of a byte: no leading zero but the numeral 0 itself, no sign, no padding (43_prn.md R111). -/
def decimalNumeral (v : Byte) : List Char :=
  let n := v.toNat
  if n < 10 then [Nat.digitChar n]
  else if n < 100 then [Nat.digitChar (n / 10), Nat.digitChar (n % 10)]
  else [Nat.digitChar (n / 100), Nat.digitChar (n / 10 % 10), Nat.digitChar (n % 10)]

/-- The line of text the host shows for one emitted value: the numeral, then one line feed (43_prn.md R111). -/
def renderLine (v : Byte) : List Char := decimalNumeral v ++ ['\n']

/-- The text the host shows for the whole output: one line per emitted value, in program order (43_prn.md R111). -/
def renderOut (out : List Byte) : List Char := out.flatMap renderLine

/-- The status port's code of the fault record (60_exceptions.md R144). -/
def faultCode : Option FaultKind → Nat
  | none => 0
  | some (.unrecognizedOpcode _) => 1
  | some (.unsupportedOperation _) => 2
  | some (.memoryAddressOutOfRange _) => 3
  | some (.registerIndexOutOfRange _) => 4

end Sys2Proof.Machine
end

