-- ==== Sys2Proof/Machine/Stack.lean ====
section
/-! DEFINITION. The unwired stack procedures of the source (spec/45_unwired.md R131, R132). No instruction and no step
calls them (R133); they stand here because the spec gives them. -/

namespace Sys2Proof.Machine

/-- `push(v)` (45_unwired.md R131): write `v` at the stack pointer, then decrement it modulo 256. -/
def push (v : Byte) (s : State) : Except FaultKind State :=
  let sp := readReg s.regs Config.spIndex
  match memWrite s.mem sp.toNat v with
  | .error k => .error k
  | .ok m => .ok { s with mem := m, regs := writeReg s.regs Config.spIndex (sp - 1) }

/-- `pop()` (45_unwired.md R132): increment the stack pointer modulo 256, then read and zero the cell; answers the
byte read. -/
def pop (s : State) : Except FaultKind (Byte × State) :=
  let sp := readReg s.regs Config.spIndex + 1
  match memRead s.mem sp.toNat with
  | .error k => .error k
  | .ok v =>
    match memWrite s.mem sp.toNat 0 with
    | .error k => .error k
    | .ok m => .ok (v, { s with mem := m, regs := writeReg s.regs Config.spIndex sp })

end Sys2Proof.Machine
end

