-- ==== Sys2Proof/Safety.lean ====
section
/-! DEFINITION. The terms claims use: how a run ends (spec/40_execution_cycle.md R89, spec/60_exceptions.md R149), runs
of the machine, and the invariant of every reachable state (spec/10_state.md R35). -/

namespace Sys2Proof.Machine

/-- A clean halt: `running` false and no fault (10_state.md R27, 40_execution_cycle.md R89). The only good final state. -/
abbrev State.CleanHalt (s : State) : Prop := s.running = false ∧ s.fault = none

/-- A fatal stop: `running` false with a fault recorded (40_execution_cycle.md R89). Never a good final state
(60_exceptions.md R149). -/
abbrev State.FatalStop (s : State) : Prop := s.running = false ∧ s.fault ≠ none

/-- Memory holds the bytes of an instruction at `pc` and upward (30_encoding.md R60). -/
abbrev State.HoldsAtPc (s : State) (i : Instr) : Prop :=
  ∀ k : Fin (encode i).length, Memory.read s.mem (s.pc.toNat + k.val) = (encode i)[k]

/-- `n` cycles lead from `s` to `t` (40_execution_cycle.md R89). -/
def RunsTo (n : Nat) (s t : State) : Prop := Host.Core.run Sys2Proof.core n s = .next t

/-- The invariants of every reachable state (10_state.md R35), with the canonical form of memory. That registers, cells
and emitted values are 0 to 255 is in their types. -/
abbrev State.Inv (s : State) : Prop :=
  s.pc.toNat ≤ 256 ∧
  (s.fault ≠ none → s.running = false) ∧
  (s.CleanHalt → s.pc.toNat < Config.memSize ∧ Memory.read s.mem s.pc.toNat = 0x01) ∧
  Memory.wf s.mem = true

/-- Two states that agree on everything but the observation `out` (10_state.md R30, R32). -/
abbrev SameMachine (s t : State) : Prop :=
  s.regs = t.regs ∧ s.pc = t.pc ∧ s.running = t.running ∧ s.fault = t.fault ∧ s.mem = t.mem

end Sys2Proof.Machine
end

