-- ==== Sys2Proof/WellFormed.lean ====
section
/-! DEFINITION. The one check an instruction can fail as syntax: it names a register outside 0 to 7
(spec/70_reset_and_hazards.md R170). Decoding does not make this check (spec/30_encoding.md R73); a decoded instruction
that fails it runs, and its handler raises RegisterIndexOutOfRange. -/

namespace Sys2Proof

/-- An operand byte in a register position names one of the eight registers (30_encoding.md R63). -/
def namesRegister (operand : Byte) : Bool := decide (operand.toNat ≤ 7)

/-- Every operand of the instruction in a register position names a register (70_reset_and_hazards.md R170;
which positions those are, 30_encoding.md R63). -/
def Instr.wellFormed : Instr → Bool
  | .hlt => true
  | .ldi a _ => namesRegister a
  | .prn a => namesRegister a
  | .mul a b => namesRegister a && namesRegister b

end Sys2Proof
end

