-- ==== Sys2Proof/Certificates/Slice0/Obligations.lean ====
section
/-! DEFINITION. The statements about the machine, taken from the numbered rules of spec/. Each docstring names the rule
it formalises; OBLIGATIONS.json quotes it. Statements marked derived rest on an inference the spec marks as its own or
on a log entry, which the docstring names. -/

open Sys2Proof Sys2Proof.Machine

/-! ## Reset, load and the invariant -/

/-- 10_state.md R34: the value of every piece of state after reset. -/
def Obligations.ResetLeavesTheStatedValues : Prop :=
  (∀ i : Fin 8, readReg State.reset.regs i = 0) ∧ State.reset.pc = 0 ∧ State.reset.running = true ∧
  State.reset.fault = none ∧ (∀ a, a < 256 → memRead State.reset.mem a = .ok 0) ∧ State.reset.out = []

/-- 70_reset_and_hazards.md R166: an image of at most 256 bytes lies at address 0 upward, zeros follow, and nothing but
memory differs from reset. -/
def Obligations.FirstStateHoldsImageThenZeros : Prop :=
  ∀ image : List Byte, image.length ≤ 256 → ∃ s, firstState image = some s ∧
    (∀ (i : Nat) (h : i < image.length), memRead s.mem i = .ok image[i]) ∧
    (∀ i, image.length ≤ i → i ≤ 255 → memRead s.mem i = .ok 0) ∧
    (∀ i : Fin 8, readReg s.regs i = 0) ∧ s.pc = 0 ∧ s.running = true ∧ s.fault = none ∧ s.out = []

/-- 70_reset_and_hazards.md section 1 (the rule's own derived sentence): with an empty image the first cycle faults on
the byte 0x00 at the entry point, address 0. -/
def Obligations.EmptyImageFaultsOnZeroByte : Prop :=
  ∃ s, firstState [] = some s ∧ s.pc = 0 ∧ step s = .next (s.raise (.unrecognizedOpcode 0x00))

/-- 10_state.md section 7 (invariants, derived there): the reset state meets the invariant. -/
def Obligations.ResetMeetsInvariant : Prop := State.reset.Inv

/-- 10_state.md section 7 (invariants, derived there): every step keeps the invariant, from every state that meets it:
pc at most 256, a fault only when halted, a clean halt only on a HLT byte, memory canonical (log entry 6). -/
def Obligations.StepKeepsInvariant : Prop := ∀ s t : State, s.Inv → step s = .next t → t.Inv

/-- 10_state.md section 7 (invariants, derived there): every state a run reaches from any loaded image meets the
invariant, and memory equals its value at the first cycle. -/
def Obligations.ReachableStatesMeetInvariant : Prop :=
  ∀ (image : List Byte) (n : Nat) (s t : State), firstState image = some s → RunsTo n s t → t.Inv ∧ t.mem = s.mem

/-! ## Memory and registers -/

/-- 20_memory.md R41: a read inside the address space gives the cell, outside it raises, and no address wraps. -/
def Obligations.MemReadGivesCellOrRaises : Prop :=
  ∀ (m : Memory) (a : Nat),
    (a ≤ 255 → memRead m a = .ok (Memory.read m a)) ∧
    (256 ≤ a → memRead m a = .error (.memoryAddressOutOfRange a))

/-- 20_memory.md R42: a write inside the address space changes that cell alone, outside it raises and writes no cell,
and no dispatched instruction writes memory. The premise is the invariant of the model's memory (log entry 6), which
every operation keeps (MemoryOperationsKeepCanonicalForm). -/
def Obligations.MemWriteChangesOneCellOrRaises : Prop :=
  (∀ (m : Memory) (a : Nat) (v : Byte), Memory.wf m = true →
    (a ≤ 255 → ∃ m', memWrite m a v = .ok m' ∧ memRead m' a = .ok v ∧
      ∀ b, b ≠ a → Memory.read m' b = Memory.read m b) ∧
    (256 ≤ a → memWrite m a v = .error (.memoryAddressOutOfRange a))) ∧
  (∀ (i : Instr) (s t : State), exec i s = .next t → ∀ b, Memory.read t.mem b = Memory.read s.mem b)

/-- 20_memory.md section 1 with log entry 6 (the model's choice of representation): two canonical memories whose 256
cells read alike are the same data. -/
def Obligations.CanonicalMemoriesReadingAlikeAreEqual : Prop :=
  ∀ m m' : Memory, Memory.wf m = true → Memory.wf m' = true →
    (∀ a, a < 256 → Memory.read m a = Memory.read m' a) → m = m'

/-- 10_state.md section 1: a register holds what was last written to it, R0 and R7 included, and a write to one register
leaves the other seven alone. -/
def Obligations.RegisterHoldsLastWrite : Prop :=
  ∀ (x : Regs) (i j : Fin 8) (v : Byte), readReg (writeReg x i v) j = if j = i then v else readReg x j

/-- 20_memory.md R55: after any number of cycles every cell holds what it held at the first, faulting cycles included. -/
def Obligations.RunNeverChangesMemory : Prop :=
  ∀ (n : Nat) (s t : State), RunsTo n s t → ∀ a, Memory.read t.mem a = Memory.read s.mem a

/-! ## Encoding -/

/-- 30_encoding.md section 3 (the decoder, derived there from the opcode map): the complete map on any three bytes. -/
def Obligations.DecoderIsTheOpcodeMap : Prop :=
  ∀ b0 b1 b2 : Byte, decode b0 b1 b2 =
    if b0 = 0x01 then .ok .hlt
    else if b0 = 0x82 then .ok (.ldi b1 b2)
    else if b0 = 0x47 then .ok (.prn b1)
    else if b0 = 0xA2 then .ok (.mul b1 b2)
    else .error (.unrecognized b0)

/-- 30_encoding.md section 3 (the opcode map): words written out bit by bit from the map, one for each row and two with
opcode bytes outside it, decode to what they stand for. -/
def Obligations.OpcodeMapWordsDecode : Prop :=
  decode 0b00000001 0xFF 0xFF = .ok .hlt ∧ decode 0b10000010 0x03 0x2A = .ok (.ldi 3 42) ∧
  decode 0b10000010 0x09 0x2A = .ok (.ldi 9 42) ∧ decode 0b01000111 0x00 0xFF = .ok (.prn 0) ∧
  decode 0b10100010 0x00 0x01 = .ok (.mul 0 1) ∧
  decode 0b00000000 0xFF 0xFF = .error (.unrecognized 0x00) ∧
  decode 0b01010100 0xFF 0xFF = .error (.unrecognized 0x54)

/-- 30_encoding.md sections 1 to 3: decoding the bytes of an instruction gives it back, with every operand byte at every
value and whatever follows it in the fetch window; and three bytes that decode to an instruction begin with exactly the
bytes the encoder gives for it. -/
def Obligations.DecodeAndEncodeAgree : Prop :=
  (∀ (i : Instr) (x y : Byte), ∃ b0 b1 b2, window (encode i ++ [x, y]) = some (b0, b1, b2) ∧
    decode b0 b1 b2 = .ok i) ∧
  (∀ (b0 b1 b2 : Byte) (i : Instr), decode b0 b1 b2 = .ok i → encode i = [b0, b1, b2].take i.format.length)

/-- 30_encoding.md sections 1 and 3 with 20_memory.md section 4: an instruction stored at pc, at any of the addresses
0 to 253 where it can be fetched whole, is the one the next cycle runs, for every operand byte. -/
def Obligations.StoredInstructionIsTheOneRun : Prop :=
  ∀ (i : Instr) (s : State), s.running = true → Memory.wf s.mem = true → s.pc.toNat ≤ 253 →
    step { s with mem := writeBytes s.mem s.pc.toNat (encode i) } =
      exec i { s with mem := writeBytes s.mem s.pc.toNat (encode i) }

/-! ## The cycle -/

/-- 40_execution_cycle.md section 3 (the cycle): while running, when the three bytes at pc exist and decode to an
instruction, the step is that instruction's meaning at that very state; nothing is added around it. -/
def Obligations.StepRunsTheDecodedInstruction : Prop :=
  ∀ (i : Instr) (s : State), s.running = true → s.pc.toNat ≤ 253 →
    decode (Memory.read s.mem s.pc.toNat) (Memory.read s.mem (s.pc.toNat + 1))
      (Memory.read s.mem (s.pc.toNat + 2)) = .ok i →
    step s = exec i s

/-- 40_execution_cycle.md section 3 (steps 1 and 2, with the sentence derived there): the reads succeed if and only if pc
is at most 253; above that the cycle raises the first address of 256 or more, which is 256 for pc 254, 255 and 256,
whatever memory holds. -/
def Obligations.FetchWindowEndsAt253 : Prop :=
  ∀ s : State,
    ((∃ w, fetchWindow s = .ok w) ↔ s.pc.toNat ≤ 253) ∧
    (s.running = true → 254 ≤ s.pc.toNat → s.pc.toNat ≤ 256 →
      step s = .next { s with running := false, fault := some (.memoryAddressOutOfRange 256) }) ∧
    (s.running = true → 257 ≤ s.pc.toNat →
      step s = .next { s with running := false, fault := some (.memoryAddressOutOfRange s.pc.toNat) })

/-- 30_encoding.md R66 and 60_exceptions.md R140: every opcode byte but the four raises UnrecognizedOpcode with that byte,
whatever the operand bytes are; 252 values have no dispatch entry. -/
def Obligations.UnrecognisedByteRaises : Prop :=
  (∀ s : State, s.running = true → s.pc.toNat ≤ 253 →
    Memory.read s.mem s.pc.toNat ≠ 0x01 → Memory.read s.mem s.pc.toNat ≠ 0x82 →
    Memory.read s.mem s.pc.toNat ≠ 0x47 → Memory.read s.mem s.pc.toNat ≠ 0xA2 →
    step s = .next { s with
      running := false, fault := some (.unrecognizedOpcode (Memory.read s.mem s.pc.toNat)) }) ∧
  ((List.range 256).filter fun n => (dispatch (BitVec.ofNat 8 n)).isNone).length = 252

/-- 40_execution_cycle.md section 3 (what one cycle can change, derived there): memory never, at most one register, and
that the destination of a LDI or MUL, and out by at most one value, and that on a PRN. -/
def Obligations.OneCycleChangesAtMostOneRegister : Prop :=
  ∀ s t : State, step s = .next t →
    t.mem = s.mem ∧
    (t.regs = s.regs ∨ ∃ r : Fin 8, (Memory.read s.mem (s.pc.toNat + 1)).toNat = r.val ∧
      (Memory.read s.mem s.pc.toNat = 0x82 ∨ Memory.read s.mem s.pc.toNat = 0xA2) ∧
      ∀ q : Fin 8, q ≠ r → readReg t.regs q = readReg s.regs q) ∧
    (t.out = s.out ∨ ∃ v, Memory.read s.mem s.pc.toNat = 0x47 ∧ t.out = s.out ++ [v])

/-- 10_state.md R24 and 40_execution_cycle.md R86: a cycle that raises no fault advances pc by exactly 0 for HLT, 2 for
PRN, 3 for LDI and MUL, to at most 256, and leaves running as continue says; a cycle that faults leaves pc. -/
def Obligations.PcAdvancesByTheWidth : Prop :=
  ∀ s t : State, s.fault = none → step s = .next t →
    (t.fault ≠ none → t.pc = s.pc) ∧
    (t.fault = none → t.pc.toNat ≤ 256 ∧ (
      (Memory.read s.mem s.pc.toNat = 0x01 ∧ t.pc.toNat = s.pc.toNat ∧ t.running = false) ∨
      (Memory.read s.mem s.pc.toNat = 0x47 ∧ t.pc.toNat = s.pc.toNat + 2 ∧ t.running = true) ∨
      (Memory.read s.mem s.pc.toNat = 0x82 ∧ t.pc.toNat = s.pc.toNat + 3 ∧ t.running = true) ∨
      (Memory.read s.mem s.pc.toNat = 0xA2 ∧ t.pc.toNat = s.pc.toNat + 3 ∧ t.running = true)))

/-! ## The instructions -/

/-- 41_hlt.md R100: HLT leaves everything but running, wherever it can be fetched (253 is the last such address); at 254
and 255 its cycle raises MemoryAddressOutOfRange(256) instead; a clean halt is reached by HLT only, and from a state with
no fault HLT reaches it for good. -/
def Obligations.HltStopsTheMachineCleanly : Prop :=
  encode .hlt = [0x01] ∧
  (∀ s : State, exec .hlt s = .next { s with running := false }) ∧
  (∀ s : State, s.running = true → s.HoldsAtPc .hlt →
    (s.pc.toNat ≤ 253 → step s = .next { s with running := false }) ∧
    (254 ≤ s.pc.toNat → s.pc.toNat ≤ 255 →
      step s = .next { s with running := false, fault := some (.memoryAddressOutOfRange 256) })) ∧
  (∀ s t : State, step s = .next t → t.CleanHalt → s.HoldsAtPc .hlt ∧ s.pc.toNat ≤ 253) ∧
  (∀ s t : State, s.fault = none → exec .hlt s = .next t → t.CleanHalt ∧ ∀ u, step t ≠ .next u)

/-- 42_ldi.md R105: LDI writes the immediate to the named register, advances pc by 3 and changes nothing else; an index
of 8 to 255 raises with nothing written; above address 253 its cycle raises the fetch fault. -/
def Obligations.LdiLoadsTheImmediate : Prop :=
  ∀ (a b : Byte) (s : State),
    encode (.ldi a b) = [0x82, a, b] ∧
    (∀ i : Fin 8, a.toNat = i.val →
      exec (.ldi a b) s = .next { s with regs := writeReg s.regs i b, pc := s.pc + 3, running := true }) ∧
    (8 ≤ a.toNat →
      exec (.ldi a b) s = .next { s with running := false, fault := some (.registerIndexOutOfRange a) }) ∧
    (s.running = true → s.HoldsAtPc (.ldi a b) →
      (s.pc.toNat ≤ 253 → step s = exec (.ldi a b) s ∧ (s.pc + 3).toNat = s.pc.toNat + 3) ∧
      (254 ≤ s.pc.toNat → step s = .next (s.raise (.memoryAddressOutOfRange (max s.pc.toNat 256)))))

/-- 43_prn.md R110: PRN appends the register's value to out, advances pc by 2 and changes nothing else; an index of 8 to
255 raises with nothing emitted; above address 253 its cycle raises the fetch fault. -/
def Obligations.PrnEmitsTheRegister : Prop :=
  ∀ (a : Byte) (s : State),
    encode (.prn a) = [0x47, a] ∧
    (∀ i : Fin 8, a.toNat = i.val →
      exec (.prn a) s = .next { s with out := s.out ++ [readReg s.regs i], pc := s.pc + 2, running := true }) ∧
    (8 ≤ a.toNat →
      exec (.prn a) s = .next { s with running := false, fault := some (.registerIndexOutOfRange a) }) ∧
    (s.running = true → s.HoldsAtPc (.prn a) →
      (s.pc.toNat ≤ 253 → step s = exec (.prn a) s ∧ (s.pc + 2).toNat = s.pc.toNat + 2) ∧
      (254 ≤ s.pc.toNat → step s = .next (s.raise (.memoryAddressOutOfRange (max s.pc.toNat 256)))))

/-- 44_alu_mul.md R122: MUL writes the product modulo 256 (the spec's decision D2) to the first register, advances pc by 3
and changes nothing else, the same register as both operands included; a bad index raises, operand_a's first; above
address 253 its cycle raises the fetch fault. -/
def Obligations.MulMultipliesRegisters : Prop :=
  ∀ (a b : Byte) (s : State),
    encode (.mul a b) = [0xA2, a, b] ∧
    (∀ i j : Fin 8, a.toNat = i.val → b.toNat = j.val →
      ∃ v : Byte, v.toNat = ((readReg s.regs i).toNat * (readReg s.regs j).toNat) % 256 ∧
        exec (.mul a b) s = .next { s with regs := writeReg s.regs i v, pc := s.pc + 3, running := true }) ∧
    (8 ≤ a.toNat →
      exec (.mul a b) s = .next { s with running := false, fault := some (.registerIndexOutOfRange a) }) ∧
    (a.toNat ≤ 7 → 8 ≤ b.toNat →
      exec (.mul a b) s = .next { s with running := false, fault := some (.registerIndexOutOfRange b) }) ∧
    (s.running = true → s.HoldsAtPc (.mul a b) →
      (s.pc.toNat ≤ 253 → step s = exec (.mul a b) s ∧ (s.pc + 3).toNat = s.pc.toNat + 3) ∧
      (254 ≤ s.pc.toNat → step s = .next (s.raise (.memoryAddressOutOfRange (max s.pc.toNat 256)))))

/-- 10_state.md section 1 (the table of reads and writes): HLT and PRN write no register, no memory cell and not the
fault record, but for the fault of a bad index; HLT leaves out and pc. -/
def Obligations.HltAndPrnFrame : Prop :=
  ∀ (a : Byte) (s t : State),
    (exec .hlt s = .next t → t.regs = s.regs ∧ t.pc = s.pc ∧ t.fault = s.fault ∧ t.out = s.out ∧
      ∀ c, Memory.read t.mem c = Memory.read s.mem c) ∧
    (exec (.prn a) s = .next t → (∀ r : Fin 8, readReg t.regs r = readReg s.regs r) ∧
      (a.toNat ≤ 7 → t.fault = s.fault) ∧ (∃ ys, t.out = s.out ++ ys) ∧
      ∀ c, Memory.read t.mem c = Memory.read s.mem c)

/-- 10_state.md section 1 (the table of reads and writes): LDI and MUL change no register but the one operand_a names, no
memory cell, not out, and the fault record only for a bad index. -/
def Obligations.LdiAndMulFrame : Prop :=
  ∀ (a b : Byte) (s t : State),
    (exec (.ldi a b) s = .next t ∨ exec (.mul a b) s = .next t →
      (∀ r : Fin 8, a.toNat ≠ r.val → readReg t.regs r = readReg s.regs r) ∧ t.out = s.out ∧
      ∀ c, Memory.read t.mem c = Memory.read s.mem c) ∧
    (exec (.ldi a b) s = .next t → a.toNat ≤ 7 → t.fault = s.fault) ∧
    (exec (.mul a b) s = .next t → a.toNat ≤ 7 → b.toNat ≤ 7 → t.fault = s.fault)

/-- 40_execution_cycle.md section 1 (the handler contract): what an instruction does to the registers, out, running and
fault, and how far it moves pc, depend on neither pc nor memory. -/
def Obligations.HandlersSeeNeitherPcNorMemory : Prop :=
  ∀ (i : Instr) (s t : State) (p : ProgramCounter) (m : Memory), exec i s = .next t →
    exec i { s with pc := p, mem := m } = .next { t with pc := p + (t.pc - s.pc), mem := m }

/-- 70_reset_and_hazards.md section 2 with log entry 7: an instruction raises no fault exactly when it names only
registers 0 to 7, which is the well-formedness check. -/
def Obligations.RaisesExactlyWhenIllFormed : Prop :=
  ∀ (i : Instr) (s t : State), s.fault = none → exec i s = .next t → (t.fault = none ↔ i.wellFormed = true)

/-! ## The arithmetic-logic unit -/

/-- 44_alu_mul.md R116: the ALU's ADD, which no instruction reaches: the sum modulo 256 to the first register, the others
unchanged; a bad index raises, the first operand's first. -/
def Obligations.AluAddRule : Prop :=
  ∀ (x : Regs) (ra rb : Byte),
    (∀ i j : Fin 8, ra.toNat = i.val → rb.toNat = j.val → ∃ y, aluApply .add x ra rb = .ok y ∧
      (readReg y i).toNat = ((readReg x i).toNat + (readReg x j).toNat) % 256 ∧
      ∀ r : Fin 8, r ≠ i → readReg y r = readReg x r) ∧
    (8 ≤ ra.toNat → aluApply .add x ra rb = .error (.registerIndexOutOfRange ra)) ∧
    (ra.toNat ≤ 7 → 8 ≤ rb.toNat → aluApply .add x ra rb = .error (.registerIndexOutOfRange rb))

/-- 44_alu_mul.md R117: the ALU's MUL: the low eight bits of the exact product to the first register, the others
unchanged; a bad index raises, the first operand's first. -/
def Obligations.AluMulRule : Prop :=
  ∀ (x : Regs) (ra rb : Byte),
    (∀ i j : Fin 8, ra.toNat = i.val → rb.toNat = j.val → ∃ y, aluApply .mul x ra rb = .ok y ∧
      (readReg y i).toNat = ((readReg x i).toNat * (readReg x j).toNat) % 256 ∧
      ∀ r : Fin 8, r ≠ i → readReg y r = readReg x r) ∧
    (8 ≤ ra.toNat → aluApply .mul x ra rb = .error (.registerIndexOutOfRange ra)) ∧
    (ra.toNat ≤ 7 → 8 ≤ rb.toNat → aluApply .mul x ra rb = .error (.registerIndexOutOfRange rb))

/-- 44_alu_mul.md R118 and 60_exceptions.md R141: a kind other than ADD and MUL raises UnsupportedOperation with that kind
whatever the indices are, a cycle that meets it changes running and fault only, and no step records that fault where it
was not recorded before. -/
def Obligations.UnsupportedKindRaisesButNoProgramCan : Prop :=
  (∀ (op : AluOp) (x : Regs) (ra rb : Byte), op ≠ .add → op ≠ .mul →
    aluApply op x ra rb = .error (.unsupportedOperation op)) ∧
  (∀ (s t : State) (op : AluOp), step s = .next t → s.fault ≠ some (.unsupportedOperation op) →
    t.fault ≠ some (.unsupportedOperation op)) ∧
  (∀ (op : AluOp) (s : State), finishCycle s (.error (.unsupportedOperation op)) =
    { s with running := false, fault := some (.unsupportedOperation op) })

/-! ## Faults -/

/-- 60_exceptions.md R143: an operand byte of 8 to 255 in a register position raises with that byte and changes nothing
else, for LDI and PRN in operand_a, for MUL in operand_a first and then operand_b. -/
def Obligations.BadRegisterIndexRaises : Prop :=
  ∀ (a b : Byte) (s : State),
    (8 ≤ a.toNat → exec (.ldi a b) s = .next (s.raise (.registerIndexOutOfRange a)) ∧
      exec (.prn a) s = .next (s.raise (.registerIndexOutOfRange a)) ∧
      exec (.mul a b) s = .next (s.raise (.registerIndexOutOfRange a))) ∧
    (a.toNat ≤ 7 → 8 ≤ b.toNat → exec (.mul a b) s = .next (s.raise (.registerIndexOutOfRange b))) ∧
    (∀ k, s.raise k = { s with running := false, fault := some k })

/-- 60_exceptions.md section 1 (which instruction can raise what, a table derived there): a cycle from a state with no
fault records exactly the faults of the table, each under exactly its condition, and never UnsupportedOperation. -/
def Obligations.FaultsAreExactlyThoseOfTheTable : Prop :=
  ∀ (s : State) (k : FaultKind), s.running = true → s.fault = none →
    ((∃ t, step s = .next t ∧ t.fault = some k) ↔
      (254 ≤ s.pc.toNat ∧ k = .memoryAddressOutOfRange (max s.pc.toNat 256)) ∨
      (s.pc.toNat ≤ 253 ∧ dispatch (Memory.read s.mem s.pc.toNat) = none ∧
        k = .unrecognizedOpcode (Memory.read s.mem s.pc.toNat)) ∨
      (s.pc.toNat ≤ 253 ∧ 8 ≤ (Memory.read s.mem (s.pc.toNat + 1)).toNat ∧
        (Memory.read s.mem s.pc.toNat = 0x82 ∨ Memory.read s.mem s.pc.toNat = 0x47 ∨
          Memory.read s.mem s.pc.toNat = 0xA2) ∧
        k = .registerIndexOutOfRange (Memory.read s.mem (s.pc.toNat + 1))) ∨
      (s.pc.toNat ≤ 253 ∧ (Memory.read s.mem (s.pc.toNat + 1)).toNat ≤ 7 ∧
        8 ≤ (Memory.read s.mem (s.pc.toNat + 2)).toNat ∧ Memory.read s.mem s.pc.toNat = 0xA2 ∧
        k = .registerIndexOutOfRange (Memory.read s.mem (s.pc.toNat + 2))))

/-- 60_exceptions.md R147: the first raise wins: the fetch before the dispatch, the dispatch before the operands, the ALU
kind before the indices, operand_a before operand_b; and after a raise no cycle raises another. -/
def Obligations.FirstRaiseWins : Prop :=
  (∀ s : State, s.running = true → 254 ≤ s.pc.toNat →
    step s = .next (s.raise (.memoryAddressOutOfRange (max s.pc.toNat 256)))) ∧
  (∀ s : State, s.running = true → s.pc.toNat ≤ 253 → dispatch (Memory.read s.mem s.pc.toNat) = none →
    step s = .next (s.raise (.unrecognizedOpcode (Memory.read s.mem s.pc.toNat)))) ∧
  (∀ (op : AluOp) (x : Regs) (ra rb : Byte), op ≠ .add → op ≠ .mul →
    aluApply op x ra rb = .error (.unsupportedOperation op)) ∧
  (∀ (op : AluOp) (x : Regs) (ra rb : Byte), op = .add ∨ op = .mul → 8 ≤ ra.toNat →
    aluApply op x ra rb = .error (.registerIndexOutOfRange ra)) ∧
  (∀ (op : AluOp) (x : Regs) (ra rb : Byte), op = .add ∨ op = .mul → ra.toNat ≤ 7 → 8 ≤ rb.toNat →
    aluApply op x ra rb = .error (.registerIndexOutOfRange rb)) ∧
  (∀ (s : State) (k : FaultKind) (t : State), step (s.raise k) ≠ .next t)

/-- 60_exceptions.md R145: a faulting cycle changes running and fault only. -/
def Obligations.FaultingCycleChangesOnlyRunningAndFault : Prop :=
  ∀ s t : State, step s = .next t → t.fault ≠ s.fault →
    t = { s with running := false, fault := t.fault }

/-- 60_exceptions.md R144: the status port's codes. -/
def Obligations.FaultCodesOfTheStatusPort : Prop :=
  faultCode none = 0 ∧ (∀ b, faultCode (some (.unrecognizedOpcode b)) = 1) ∧
  (∀ op, faultCode (some (.unsupportedOperation op)) = 2) ∧
  (∀ a, faultCode (some (.memoryAddressOutOfRange a)) = 3) ∧
  (∀ b, faultCode (some (.registerIndexOutOfRange b)) = 4)

/-! ## The run -/

/-- 40_execution_cycle.md section 5 with log entry 2 (the model's reading): the halted state has no cycle, so a run that
starts there is already at its end. -/
def Obligations.HaltedStateHasNoCycle : Prop :=
  ∀ s : State, s.running = false →
    step s = .fault .halted ∧ ∀ (n : Nat) (t : State), RunsTo n s t → n = 0 ∧ t = s

/-- 40_execution_cycle.md section 5 (derived there): from every state a halted state is reached within 128 cycles; at most
127 cycles leave the machine running, each of them at pc 253 or below and adding 2 or 3 to pc. -/
def Obligations.EveryRunEndsWithin128Cycles : Prop :=
  (∀ s : State, ∃ n t, n ≤ 128 ∧ RunsTo n s t ∧ t.running = false) ∧
  (∀ (n : Nat) (s t : State), RunsTo n s t → t.running = true → n ≤ 127) ∧
  (∀ s t : State, step s = .next t → t.running = true →
    s.pc.toNat ≤ 253 ∧ (t.pc.toNat = s.pc.toNat + 2 ∨ t.pc.toNat = s.pc.toNat + 3))

/-- 10_state.md R30: out is empty at reset, grows by exactly the printed register's value for an executed PRN and by
nothing otherwise, and the next state of everything else never depends on it. -/
def Obligations.OutGrowsByPrnAloneAndIsNeverRead : Prop :=
  State.reset.out = [] ∧
  (∀ (s t : State) (i : Fin 8), step s = .next t → s.pc.toNat ≤ 253 → Memory.read s.mem s.pc.toNat = 0x47 →
    (Memory.read s.mem (s.pc.toNat + 1)).toNat = i.val → t.out = s.out ++ [readReg s.regs i]) ∧
  (∀ s t : State, step s = .next t → t.out ≠ s.out → s.pc.toNat ≤ 253 ∧ Memory.read s.mem s.pc.toNat = 0x47 ∧
    ∃ i : Fin 8, (Memory.read s.mem (s.pc.toNat + 1)).toNat = i.val ∧ t.out = s.out ++ [readReg s.regs i]) ∧
  (∀ s s' t : State, SameMachine s s' → step s = .next t → ∃ t', step s' = .next t' ∧ SameMachine t t')

/-- 10_state.md section 6 (no hidden state): two states that agree on everything but out run alike for any number of
cycles, and emit the same values. -/
def Obligations.AgreeingStatesRunAlike : Prop :=
  ∀ (n : Nat) (s s' t : State), SameMachine s s' → RunsTo n s t →
    ∃ t' ys, RunsTo n s' t' ∧ SameMachine t t' ∧ t.out = s.out ++ ys ∧ t'.out = s'.out ++ ys

/-- 20_memory.md section 3 (the accesses of one cycle): a cycle depends on memory only through the three cells at pc,
pc + 1 and pc + 2. -/
def Obligations.CycleReadsOnlyThreeCells : Prop :=
  ∀ (s t : State) (m : Memory),
    Memory.read m s.pc.toNat = Memory.read s.mem s.pc.toNat →
    Memory.read m (s.pc.toNat + 1) = Memory.read s.mem (s.pc.toNat + 1) →
    Memory.read m (s.pc.toNat + 2) = Memory.read s.mem (s.pc.toNat + 2) →
    step s = .next t → step { s with mem := m } = .next { t with mem := m }

/-! ## The output port and the unwired procedures -/

/-- 43_prn.md R111: each value is one line: its decimal numeral, digits only, no leading zero but the numeral 0 itself,
then one line feed; the lines stand in the order of out. -/
def Obligations.OutputLinesAreDecimalNumerals : Prop :=
  (∀ v : Byte, ∃ ds : List Char, renderLine v = ds ++ ['\n'] ∧ ds ≠ [] ∧
    (∀ c ∈ ds, 48 ≤ c.toNat ∧ c.toNat ≤ 57) ∧ (ds.head? = some '0' → ds = ['0']) ∧
    ds.foldl (fun n c => 10 * n + (c.toNat - 48)) 0 = v.toNat) ∧
  renderOut [] = [] ∧ ∀ (v : Byte) (vs : List Byte), renderOut (v :: vs) = renderLine v ++ renderOut vs

/-- 45_unwired.md R131: push writes the byte at the stack pointer, then decrements it modulo 256, and changes nothing
else. -/
def Obligations.PushWritesThenDecrements : Prop :=
  ∀ (v : Byte) (s : State), Memory.wf s.mem = true → ∃ t, push v s = .ok t ∧
    Memory.read t.mem (readReg s.regs 7).toNat = v ∧
    (∀ c, c ≠ (readReg s.regs 7).toNat → Memory.read t.mem c = Memory.read s.mem c) ∧
    (readReg t.regs 7).toNat = ((readReg s.regs 7).toNat + 255) % 256 ∧
    (∀ r : Fin 8, r ≠ 7 → readReg t.regs r = readReg s.regs r) ∧
    t.pc = s.pc ∧ t.running = s.running ∧ t.fault = s.fault ∧ t.out = s.out

/-- 45_unwired.md R132: pop increments the stack pointer modulo 256, reads the cell there and zeroes it. -/
def Obligations.PopIncrementsReadsAndZeroes : Prop :=
  ∀ s : State, Memory.wf s.mem = true → ∃ t, pop s =
      .ok (Memory.read s.mem (((readReg s.regs 7).toNat + 1) % 256), t) ∧
    Memory.read t.mem (((readReg s.regs 7).toNat + 1) % 256) = 0 ∧
    (∀ c, c ≠ ((readReg s.regs 7).toNat + 1) % 256 → Memory.read t.mem c = Memory.read s.mem c) ∧
    (readReg t.regs 7).toNat = ((readReg s.regs 7).toNat + 1) % 256 ∧
    (∀ r : Fin 8, r ≠ 7 → readReg t.regs r = readReg s.regs r) ∧
    t.pc = s.pc ∧ t.running = s.running ∧ t.fault = s.fault ∧ t.out = s.out

/-- 45_unwired.md section 2 (derived there): pop undoes push: it returns the byte, restores the stack pointer and leaves
the cell zero. -/
def Obligations.PopUndoesPush : Prop :=
  ∀ (v : Byte) (s t : State), Memory.wf s.mem = true → push v s = .ok t →
    ∃ u, pop t = .ok (v, u) ∧ u.regs = s.regs ∧ Memory.read u.mem (readReg s.regs 7).toNat = 0 ∧
      ∀ c, c ≠ (readReg s.regs 7).toNat → Memory.read u.mem c = Memory.read s.mem c

/-- 45_unwired.md section 2 (the sentence derived there from the reset values): from the reset state a first push writes
address 0, the first byte of the program, and leaves 255 in the stack pointer. -/
def Obligations.FirstPushFromResetWritesAddressZero : Prop :=
  ∀ v : Byte, ∃ t, push v State.reset = .ok t ∧ Memory.read t.mem 0 = v ∧ (readReg t.regs 7).toNat = 255

/-! ## The model's own choices -/

/-- Log entry 11 (the model's choice; 92_eei_decisions.md D18 requires at most 256 bytes and says nothing of other
images): the load refuses a longer image, in every state. -/
def Obligations.LongerImageIsRefused : Prop :=
  (∀ (s : State) (image : List Byte), 256 < image.length → s.load image = none) ∧
  (∀ image : List Byte, 256 < image.length → firstState image = none)

/-- Log entry 6 (the model's choice of representation): whatever writes memory keeps its canonical form: MemWrite, the
load, the unwired push and pop, and the storing of a table word at pc; and so does every instruction. -/
def Obligations.MemoryOperationsKeepCanonicalForm : Prop :=
  (∀ (m m' : Memory) (a : Nat) (v : Byte), Memory.wf m = true → memWrite m a v = .ok m' → Memory.wf m' = true) ∧
  ∀ s : State, Memory.wf s.mem = true →
    (∀ image t, s.load image = some t → Memory.wf t.mem = true) ∧
    (∀ v t, push v s = .ok t → Memory.wf t.mem = true) ∧
    (∀ v t, pop s = .ok (v, t) → Memory.wf t.mem = true) ∧
    (∀ nbits w, Memory.wf (s.withFetchWord nbits w).mem = true) ∧
    (∀ i t, exec i s = .next t → Memory.wf t.mem = true)
end

