-- ==== Sys2Proof/Laws/Decode.lean ====
section
/-! SUPPORT. The dispatch multiplexer selects an opcode by its own byte and by no other
(spec/40_execution_cycle.md R81). -/

namespace Sys2Proof

@[simp] theorem dispatch_byte (op : Opcode) : dispatch op.byte = some op := by
  cases op <;> decide

/-- A byte the multiplexer selects by is the selected opcode's own. -/
theorem byte_of_dispatch {b : Byte} {op : Opcode} (h : dispatch b = some op) : b = op.byte := by
  unfold dispatch at h
  split_ifs at h with h1 h2 h3 h4
  · cases h; exact h1
  · cases h; exact h2
  · cases h; exact h3
  · cases h; exact h4

theorem dispatch_eq_some_iff (b : Byte) (op : Opcode) : dispatch b = some op ↔ b = op.byte :=
  ⟨byte_of_dispatch, fun h => h ▸ dispatch_byte op⟩

theorem decode_of_dispatch {b0 : Byte} {op : Opcode} (h : dispatch b0 = some op) (b1 b2 : Byte) :
    decode b0 b1 b2 = .ok (op.withOperands b1 b2) := by
  simp [decode, h]

theorem decode_of_not_dispatch {b0 : Byte} (h : dispatch b0 = none) (b1 b2 : Byte) :
    decode b0 b1 b2 = .error (.unrecognized b0) := by
  simp [decode, h]

/-- Everything the decoder can answer. -/
theorem decode_cases (b0 b1 b2 : Byte) :
    (∃ op : Opcode, b0 = op.byte ∧ decode b0 b1 b2 = .ok (op.withOperands b1 b2)) ∨
      (dispatch b0 = none ∧ decode b0 b1 b2 = .error (.unrecognized b0)) := by
  cases h : dispatch b0 with
  | none => exact .inr ⟨rfl, decode_of_not_dispatch h b1 b2⟩
  | some op => exact .inl ⟨op, byte_of_dispatch h, decode_of_dispatch h b1 b2⟩

end Sys2Proof
end

