-- ==== Sys2Proof/Laws/Memory.lean ====
section
/-! SUPPORT. The laws of memory: reading after writing, and that every memory operation keeps the canonical form
(spec/20_memory.md R41, R42). -/

namespace Sys2Proof.Machine

@[simp] theorem Memory.read_nil (a : Nat) : Memory.read [] a = Config.cellReset := rfl

theorem Memory.read_cons (b a : Nat) (w : Byte) (m : Memory) :
    Memory.read ((b, w) :: m) a = if a = b then w else Memory.read m a := rfl

@[simp] theorem Memory.wf_nil : Memory.wf [] = true := rfl

/-- What the canonical form says of a memory's first cell and of the rest. -/
theorem Memory.wfFrom_cons {lo a : Nat} {v : Byte} {m : Memory} :
    Memory.wfFrom lo ((a, v) :: m) = true ↔
      lo ≤ a ∧ a < Config.memSize ∧ v ≠ Config.cellReset ∧ Memory.wfFrom (a + 1) m = true := by
  simp only [Memory.wfFrom, Bool.and_eq_true, decide_eq_true_eq]
  tauto

theorem Memory.wfFrom_mono {lo lo' : Nat} {m : Memory} (hle : lo' ≤ lo) (h : Memory.wfFrom lo m = true) :
    Memory.wfFrom lo' m = true := by
  cases m with
  | nil => rfl
  | cons c m =>
    obtain ⟨a, v⟩ := c
    rw [Memory.wfFrom_cons] at h ⊢
    exact ⟨hle.trans h.1, h.2⟩

/-- Below the first listed address, memory reads as at reset. -/
theorem Memory.read_below {lo a : Nat} {m : Memory} (h : Memory.wfFrom lo m = true) (ha : a < lo) :
    Memory.read m a = Config.cellReset := by
  induction m generalizing lo with
  | nil => rfl
  | cons c m ih =>
    obtain ⟨b, w⟩ := c
    obtain ⟨hlo, -, -, hm⟩ := Memory.wfFrom_cons.1 h
    rw [Memory.read_cons, if_neg (by omega)]
    exact ih hm (by omega)

theorem Memory.write_wfFrom {lo a : Nat} {m : Memory} (v : Byte) (h : Memory.wfFrom lo m = true) (hlo : lo ≤ a)
    (ha : a < Config.memSize) : Memory.wfFrom lo (Memory.write m a v) = true := by
  induction m generalizing lo with
  | nil =>
    simp only [Memory.write]
    split
    · rfl
    · next hv => exact Memory.wfFrom_cons.2 ⟨hlo, ha, hv, rfl⟩
  | cons c m ih =>
    obtain ⟨b, w⟩ := c
    obtain ⟨hb, hb', hw, hm⟩ := Memory.wfFrom_cons.1 h
    simp only [Memory.write]
    split
    · next hab =>
      split
      · exact h
      · next hv => exact Memory.wfFrom_cons.2 ⟨hlo, ha, hv, Memory.wfFrom_cons.2 ⟨hab, hb', hw, hm⟩⟩
    · split
      · next hab =>
        subst hab
        split
        · exact Memory.wfFrom_mono (by omega) hm
        · next hv => exact Memory.wfFrom_cons.2 ⟨hlo, ha, hv, hm⟩
      · exact Memory.wfFrom_cons.2 ⟨hb, hb', hw, ih hm (by omega)⟩

/-- A write inside the address space keeps the canonical form. -/
theorem Memory.write_wf {m : Memory} {a : Nat} (v : Byte) (h : Memory.wf m = true) (ha : a < Config.memSize) :
    Memory.wf (Memory.write m a v) = true :=
  Memory.write_wfFrom v h (Nat.zero_le a) ha

theorem Memory.read_write_same_from {lo a : Nat} {m : Memory} (v : Byte) (h : Memory.wfFrom lo m = true) :
    Memory.read (Memory.write m a v) a = v := by
  induction m generalizing lo with
  | nil =>
    simp only [Memory.write]
    split
    · next hv => exact hv.symm
    · simp [Memory.read_cons]
  | cons c m ih =>
    obtain ⟨b, w⟩ := c
    obtain ⟨-, -, -, hm⟩ := Memory.wfFrom_cons.1 h
    simp only [Memory.write]
    split
    · next hab =>
      split
      · next hv =>
        rw [Memory.read_cons, if_neg (by omega), Memory.read_below hm (by omega), hv]
      · simp [Memory.read_cons]
    · split
      · next hab =>
        subst hab
        split
        · next hv => rw [Memory.read_below hm (by omega), hv]
        · simp [Memory.read_cons]
      · next hab =>
        rw [Memory.read_cons, if_neg hab]
        exact ih hm

/-- A read gives the byte last written. -/
theorem Memory.read_write_same {m : Memory} (a : Nat) (v : Byte) (h : Memory.wf m = true) :
    Memory.read (Memory.write m a v) a = v :=
  Memory.read_write_same_from v h

/-- A write leaves every other address alone. -/
theorem Memory.read_write_other {m : Memory} {a a' : Nat} (v : Byte) (hne : a' ≠ a) :
    Memory.read (Memory.write m a v) a' = Memory.read m a' := by
  induction m with
  | nil =>
    simp only [Memory.write]
    split
    · rfl
    · simp [Memory.read_cons, hne]
  | cons c m ih =>
    obtain ⟨b, w⟩ := c
    simp only [Memory.write]
    split
    · split
      · rfl
      · simp [Memory.read_cons, hne]
    · split
      · next hab =>
        subst hab
        split <;> simp [Memory.read_cons, hne]
      · simp only [Memory.read_cons, ih]

/-! ## The primitives -/

theorem memRead_inRange (m : Memory) {a : Nat} (h : a < 256) : memRead m a = .ok (Memory.read m a) := if_pos h

theorem memRead_outOfRange (m : Memory) {a : Nat} (h : 256 ≤ a) :
    memRead m a = .error (.memoryAddressOutOfRange a) := if_neg (Nat.not_lt.2 h)

theorem memWrite_inRange (m : Memory) {a : Nat} (v : Byte) (h : a < 256) :
    memWrite m a v = .ok (Memory.write m a v) := if_pos h

theorem memWrite_outOfRange (m : Memory) {a : Nat} (v : Byte) (h : 256 ≤ a) :
    memWrite m a v = .error (.memoryAddressOutOfRange a) := if_neg (Nat.not_lt.2 h)

/-- Everything a write that completes has done. -/
theorem memWrite_ok {m m' : Memory} {a : Nat} {v : Byte} (h : memWrite m a v = .ok m') :
    a < Config.memSize ∧ m' = Memory.write m a v := by
  unfold memWrite at h
  split at h
  · next ha => exact ⟨ha, (Except.ok.inj h).symm⟩
  · cases h

theorem memWrite_wf {m m' : Memory} {a : Nat} {v : Byte} (h : memWrite m a v = .ok m') (hm : Memory.wf m = true) :
    Memory.wf m' = true := by
  obtain ⟨ha, rfl⟩ := memWrite_ok h
  exact Memory.write_wf v hm ha

/-- Writing consecutive bytes keeps the canonical form, wherever it starts. -/
theorem writeBytes_wf {m : Memory} (a : Nat) (bs : List Byte) (hm : Memory.wf m = true) :
    Memory.wf (writeBytes m a bs) = true := by
  induction bs generalizing m a with
  | nil => exact hm
  | cons v bs ih =>
    simp only [writeBytes]
    split
    · next h => exact ih _ (memWrite_wf h hm)
    · exact ih _ hm

/-- Writing consecutive bytes changes no address below the first or from the last on. -/
theorem writeBytes_read_outside {m : Memory} {a a' : Nat} {bs : List Byte} (h : a' < a ∨ a + bs.length ≤ a') :
    Memory.read (writeBytes m a bs) a' = Memory.read m a' := by
  induction bs generalizing m a with
  | nil => rfl
  | cons v bs ih =>
    simp only [List.length_cons] at h
    simp only [writeBytes]
    split
    · next hw =>
      obtain ⟨-, rfl⟩ := memWrite_ok hw
      rw [ih (by omega), Memory.read_write_other v (by omega)]
    · exact ih (by omega)

/-- Writing consecutive bytes inside the address space puts each in its place. -/
theorem writeBytes_read_inside {m : Memory} {a i : Nat} {bs : List Byte} (hm : Memory.wf m = true)
    (hi : i < bs.length) (hin : a + bs.length ≤ 256) :
    Memory.read (writeBytes m a bs) (a + i) = bs[i] := by
  induction bs generalizing m a i with
  | nil => exact absurd hi (Nat.not_lt_zero i)
  | cons v bs ih =>
    simp only [List.length_cons] at hi hin
    simp only [writeBytes, memWrite_inRange m v (show a < 256 by omega)]
    cases i with
    | zero =>
      rw [writeBytes_read_outside (by omega)]
      exact Memory.read_write_same a v hm
    | succ i =>
      have hw := Memory.write_wf v hm (show a < Config.memSize by simp only [Config.memSize]; omega)
      have := ih (a := a + 1) (i := i) hw (by omega) (by omega)
      rw [show a + (i + 1) = a + 1 + i by omega]
      exact this

end Sys2Proof.Machine
end

