-- ==== Sys2Proof/Laws/Operands.lean ====
section
/-! SUPPORT. What reading an operand as a register index answers, what the register file reads after a write, and
everything the ALU can answer (spec/30_encoding.md R63; spec/44_alu_mul.md R116 to R118). -/

namespace Sys2Proof.Machine

theorem regIndex_ok (i : Fin 8) {a : Byte} (h : a.toNat = i.val) : regIndex a = .ok i := by
  have hlt : a.toNat < 8 := h ▸ i.isLt
  rw [regIndex, dif_pos hlt]
  exact congrArg Except.ok (Fin.ext h)

theorem regIndex_error {a : Byte} (h : 8 ≤ a.toNat) : regIndex a = .error (.registerIndexOutOfRange a) :=
  dif_neg (Nat.not_lt.2 h)

/-- Everything reading an operand as a register index can answer. -/
theorem regIndex_cases (a : Byte) :
    (∃ i : Fin 8, a.toNat = i.val ∧ regIndex a = .ok i) ∨
      (8 ≤ a.toNat ∧ regIndex a = .error (.registerIndexOutOfRange a)) := by
  rcases Nat.lt_or_ge a.toNat 8 with h | h
  · exact .inl ⟨⟨a.toNat, h⟩, rfl, regIndex_ok ⟨a.toNat, h⟩ rfl⟩
  · exact .inr ⟨h, regIndex_error h⟩

@[simp] theorem readReg_writeReg_same (x : Regs) (i : Fin 8) (v : Byte) : readReg (writeReg x i v) i = v := by
  simp [readReg, writeReg]

theorem readReg_writeReg_other (x : Regs) {i j : Fin 8} (v : Byte) (h : j ≠ i) :
    readReg (writeReg x i v) j = readReg x j := by
  simp [readReg, writeReg, Fin.val_ne_of_ne h.symm]

@[simp] theorem sumMod256_toNat (u v : Byte) : (sumMod256 u v).toNat = (u.toNat + v.toNat) % 256 := by
  simp [sumMod256]

@[simp] theorem productMod256_toNat (u v : Byte) : (productMod256 u v).toNat = (u.toNat * v.toNat) % 256 := by
  simp [productMod256]

/-- Everything an ALU operation with a result can answer: the first bad index, or one register written. -/
theorem aluBinary_cases (f : Byte → Byte → Byte) (x : Regs) (ra rb : Byte) :
    (8 ≤ ra.toNat ∧ aluBinary f x ra rb = .error (.registerIndexOutOfRange ra)) ∨
    (ra.toNat < 8 ∧ 8 ≤ rb.toNat ∧ aluBinary f x ra rb = .error (.registerIndexOutOfRange rb)) ∨
    (∃ i j : Fin 8, ra.toNat = i.val ∧ rb.toNat = j.val ∧
      aluBinary f x ra rb = .ok (writeReg x i (f (readReg x i) (readReg x j)))) := by
  rcases regIndex_cases ra with ⟨i, hi, ei⟩ | ⟨hi, ei⟩
  · rcases regIndex_cases rb with ⟨j, hj, ej⟩ | ⟨hj, ej⟩
    · exact .inr (.inr ⟨i, j, hi, hj, by simp [aluBinary, ei, ej]⟩)
    · exact .inr (.inl ⟨hi ▸ i.isLt, hj, by simp [aluBinary, ei, ej]⟩)
  · exact .inl ⟨hi, by simp [aluBinary, ei]⟩

end Sys2Proof.Machine

namespace Sys2Proof

theorem namesRegister_iff (a : Byte) : namesRegister a = true ↔ a.toNat < 8 := by
  simp only [namesRegister, decide_eq_true_eq]
  omega

end Sys2Proof
end

