-- ==== Sys2Proof/Laws/PerInstr.lean ====
section
/-! SUPPORT. Statements made once per instruction. EncodingForm: the encoder emits the instruction's own opcode byte
first and as many bytes as its format occupies (spec/30_encoding.md R60, R65). -/

namespace Sys2Proof.Laws.EncodingForm

/-- The encoding begins with the opcode byte and has the length of the format. -/
def Statement (i : Instr) : Prop :=
  (encode i).head? = some i.opcode.byte ∧ (encode i).length = i.format.length

theorem hlt : Statement .hlt := ⟨rfl, rfl⟩

theorem ldi (a b : Byte) : Statement (.ldi a b) := ⟨rfl, rfl⟩

theorem prn (a : Byte) : Statement (.prn a) := ⟨rfl, rfl⟩

theorem mul (a b : Byte) : Statement (.mul a b) := ⟨rfl, rfl⟩

end Sys2Proof.Laws.EncodingForm
end

