-- ==== Sys2Proof/Laws/Ports.lean ====
section
/-! SUPPORT. What loading an image can answer (spec/70_reset_and_hazards.md R166). -/

namespace Sys2Proof.Machine

/-- Everything a load that is accepted has done: memory alone is written, from address 0 upward. -/
theorem State.load_some {s t : State} {image : List Byte} (h : s.load image = some t) :
    image.length ≤ 256 ∧ t = { s with mem := writeBytes s.mem 0 image } := by
  unfold State.load at h
  split at h
  · next hl => exact ⟨hl, (Option.some.inj h).symm⟩
  · cases h

/-- A load keeps the canonical form of memory. -/
theorem State.load_wf {s t : State} {image : List Byte} (h : s.load image = some t) (hm : Memory.wf s.mem = true) :
    Memory.wf t.mem = true := by
  obtain ⟨-, rfl⟩ := State.load_some h
  exact writeBytes_wf 0 image hm

end Sys2Proof.Machine
end

