-- ==== Sys2Proof/Laws/State.lean ====
section
/-! SUPPORT. What each update of the state leaves in each field, so that no later proof unfolds a record update: the
fields after `raise` (spec/00_scope.md R13), after step 5 of a cycle (spec/40_execution_cycle.md R86) and at reset
(spec/10_state.md R34). -/

namespace Sys2Proof.Machine

section Raise
variable (s : State) (k : FaultKind)

@[simp] theorem State.raise_regs : (s.raise k).regs = s.regs := rfl
@[simp] theorem State.raise_pc : (s.raise k).pc = s.pc := rfl
@[simp] theorem State.raise_running : (s.raise k).running = false := rfl
@[simp] theorem State.raise_fault : (s.raise k).fault = some k := rfl
@[simp] theorem State.raise_mem : (s.raise k).mem = s.mem := rfl
@[simp] theorem State.raise_out : (s.raise k).out = s.out := rfl

end Raise

section ApplyResult
variable (s : State) (r : HandlerResult)

@[simp] theorem State.applyResult_regs : (s.applyResult r).regs = r.regs := rfl
@[simp] theorem State.applyResult_pc : (s.applyResult r).pc = s.pc + BitVec.ofNat 9 r.width := rfl
@[simp] theorem State.applyResult_running : (s.applyResult r).running = r.goOn := rfl
@[simp] theorem State.applyResult_fault : (s.applyResult r).fault = s.fault := rfl
@[simp] theorem State.applyResult_mem : (s.applyResult r).mem = s.mem := rfl
@[simp] theorem State.applyResult_out : (s.applyResult r).out = s.out ++ r.emitted.toList := rfl

end ApplyResult

@[simp] theorem State.reset_pc : State.reset.pc = 0 := rfl
@[simp] theorem State.reset_running : State.reset.running = true := rfl
@[simp] theorem State.reset_fault : State.reset.fault = none := rfl
@[simp] theorem State.reset_mem : State.reset.mem = [] := rfl
@[simp] theorem State.reset_out : State.reset.out = [] := rfl

@[simp] theorem finishCycle_error (s : State) (k : FaultKind) : finishCycle s (.error k) = s.raise k := rfl
@[simp] theorem finishCycle_ok (s : State) (r : HandlerResult) : finishCycle s (.ok r) = s.applyResult r := rfl

/-- Whatever the handler answers, the end of a cycle leaves memory alone (20_memory.md R44). -/
@[simp] theorem finishCycle_mem (s : State) (h : Except FaultKind HandlerResult) : (finishCycle s h).mem = s.mem := by
  cases h <;> rfl

end Sys2Proof.Machine
end

