-- ==== Sys2Proof/Laws/Step.lean ====
section
/-! SUPPORT. What a cycle can do, said once: the fetch window (spec/40_execution_cycle.md R83), the handlers (R85) and
the inversion of a step that answers a next state (R82). Later proofs cite these instead of unfolding `step`. -/

namespace Sys2Proof.Machine

/-! ## Fetch -/

/-- Inside the fetch window all three reads succeed. -/
theorem fetchWindow_inside {s : State} (h : s.pc.toNat ≤ 253) :
    fetchWindow s = .ok (Memory.read s.mem s.pc.toNat, Memory.read s.mem (s.pc.toNat + 1),
      Memory.read s.mem (s.pc.toNat + 2)) := by
  simp [fetchWindow, memRead_inRange s.mem (show s.pc.toNat < 256 by omega),
    memRead_inRange s.mem (show s.pc.toNat + 1 < 256 by omega),
    memRead_inRange s.mem (show s.pc.toNat + 2 < 256 by omega)]

/-- Outside the fetch window the first address of 256 or more is reported, whatever memory holds. -/
theorem fetchWindow_outside {s : State} (h : 254 ≤ s.pc.toNat) :
    fetchWindow s = .error (.memoryAddressOutOfRange (max s.pc.toNat 256)) := by
  rcases Nat.lt_or_ge s.pc.toNat 256 with hlt | hge
  · have hmax : max s.pc.toNat 256 = 256 := by omega
    simp only [fetchWindow, memRead_inRange s.mem hlt, hmax]
    rcases Nat.lt_or_ge (s.pc.toNat + 1) 256 with h1 | h1
    · simp only [memRead_inRange s.mem h1, memRead_outOfRange s.mem (show 256 ≤ s.pc.toNat + 2 by omega)]
      rw [show s.pc.toNat + 2 = 256 by omega]
    · simp only [memRead_outOfRange s.mem h1]
      rw [show s.pc.toNat + 1 = 256 by omega]
  · have hmax : max s.pc.toNat 256 = s.pc.toNat := by omega
    simp only [fetchWindow, memRead_outOfRange s.mem hge, hmax]

/-- Everything steps 1 to 3 of a cycle can answer. -/
theorem fetchInstr_cases (s : State) :
    (254 ≤ s.pc.toNat ∧ fetchInstr s = .error (.memoryAddressOutOfRange (max s.pc.toNat 256))) ∨
    (s.pc.toNat ≤ 253 ∧ dispatch (Memory.read s.mem s.pc.toNat) = none ∧
      fetchInstr s = .error (.unrecognizedOpcode (Memory.read s.mem s.pc.toNat))) ∨
    (∃ op : Opcode, s.pc.toNat ≤ 253 ∧ Memory.read s.mem s.pc.toNat = op.byte ∧
      fetchInstr s = .ok (op.withOperands (Memory.read s.mem (s.pc.toNat + 1))
        (Memory.read s.mem (s.pc.toNat + 2)))) := by
  rcases Nat.lt_or_ge s.pc.toNat 254 with h | h
  · have hw := fetchWindow_inside (s := s) (by omega)
    rcases decode_cases (Memory.read s.mem s.pc.toNat) (Memory.read s.mem (s.pc.toNat + 1))
        (Memory.read s.mem (s.pc.toNat + 2)) with ⟨op, hb, hd⟩ | ⟨hn, hd⟩
    · exact .inr (.inr ⟨op, by omega, hb, by simp [fetchInstr, hw, hd]⟩)
    · exact .inr (.inl ⟨by omega, hn, by simp [fetchInstr, hw, hd]⟩)
  · exact .inl ⟨h, by simp [fetchInstr, fetchWindow_outside h]⟩

/-! ## Handlers -/

/-- The handler an instruction invokes (40_execution_cycle.md R85). -/
def handlerOf : Instr → Regs → Except FaultKind HandlerResult
  | .hlt => hltHandler
  | .ldi a b => ldiHandler a b
  | .prn a => prnHandler a
  | .mul a b => mulHandler a b

/-- Every meaning is the end of the cycle of its handler. -/
theorem exec_eq (i : Instr) (s : State) : exec i s = .next (finishCycle s (handlerOf i s.regs)) := by
  cases i <;> rfl

/-- Everything the handler of `LDI` can answer. -/
theorem ldiHandler_cases (a b : Byte) (x : Regs) :
    (∃ i : Fin 8, a.toNat = i.val ∧ ldiHandler a b x = .ok ⟨writeReg x i b, none, 3, true⟩) ∨
      (8 ≤ a.toNat ∧ ldiHandler a b x = .error (.registerIndexOutOfRange a)) := by
  rcases regIndex_cases a with ⟨i, hi, e⟩ | ⟨hi, e⟩
  · exact .inl ⟨i, hi, by simp [ldiHandler, e]⟩
  · exact .inr ⟨hi, by simp [ldiHandler, e]⟩

/-- Everything the handler of `PRN` can answer. -/
theorem prnHandler_cases (a : Byte) (x : Regs) :
    (∃ i : Fin 8, a.toNat = i.val ∧ prnHandler a x = .ok ⟨x, some (readReg x i), 2, true⟩) ∨
      (8 ≤ a.toNat ∧ prnHandler a x = .error (.registerIndexOutOfRange a)) := by
  rcases regIndex_cases a with ⟨i, hi, e⟩ | ⟨hi, e⟩
  · exact .inl ⟨i, hi, by simp [prnHandler, e]⟩
  · exact .inr ⟨hi, by simp [prnHandler, e]⟩

/-- Everything the handler of `MUL` can answer. -/
theorem mulHandler_cases (a b : Byte) (x : Regs) :
    (∃ i j : Fin 8, a.toNat = i.val ∧ b.toNat = j.val ∧
      mulHandler a b x = .ok ⟨writeReg x i (productMod256 (readReg x i) (readReg x j)), none, 3, true⟩) ∨
    (8 ≤ a.toNat ∧ mulHandler a b x = .error (.registerIndexOutOfRange a)) ∨
    (a.toNat < 8 ∧ 8 ≤ b.toNat ∧ mulHandler a b x = .error (.registerIndexOutOfRange b)) := by
  rcases aluBinary_cases productMod256 x a b with ⟨h, e⟩ | ⟨h, h', e⟩ | ⟨i, j, hi, hj, e⟩
  · exact .inr (.inl ⟨h, by simp [mulHandler, aluApply, e]⟩)
  · exact .inr (.inr ⟨h, h', by simp [mulHandler, aluApply, e]⟩)
  · exact .inl ⟨i, j, hi, hj, by simp [mulHandler, aluApply, e]⟩

/-! ## The step -/

theorem step_halted {s : State} (h : s.running = false) : step s = .fault .halted := by
  simp [step, h, haltedOutcome]

theorem step_fetch_error {s : State} {k : FaultKind} (hr : s.running = true) (h : fetchInstr s = .error k) :
    step s = .next (s.raise k) := by
  simp [step, hr, h]

theorem step_fetch_ok {s : State} {i : Instr} (hr : s.running = true) (h : fetchInstr s = .ok i) :
    step s = exec i s := by
  simp [step, hr, h]

/-- The inversion of a step that answers a next state: the machine was running, and either the fetch or the dispatch
raised a fault, or the handler of the fetched instruction ended the cycle. -/
theorem step_next_cases {s t : State} (h : step s = .next t) :
    s.running = true ∧
      ((∃ k, fetchInstr s = .error k ∧ t = s.raise k) ∨
        (∃ i, fetchInstr s = .ok i ∧ t = finishCycle s (handlerOf i s.regs))) := by
  cases hr : s.running with
  | false => rw [step_halted hr] at h; cases h
  | true =>
    refine ⟨rfl, ?_⟩
    cases hf : fetchInstr s with
    | error k =>
      rw [step_fetch_error hr hf] at h
      exact .inl ⟨k, rfl, (Host.Outcome.next.inj h).symm⟩
    | ok i =>
      rw [step_fetch_ok hr hf, exec_eq] at h
      exact .inr ⟨i, rfl, (Host.Outcome.next.inj h).symm⟩

/-- Everything a cycle can do, case by case: the fetch fault, the unrecognised byte, the four instructions, and a bad
register index in operand_a or, for `MUL` alone, in operand_b (60_exceptions.md R146). -/
theorem step_cases {s t : State} (h : step s = .next t) :
    let op := Memory.read s.mem s.pc.toNat
    let a := Memory.read s.mem (s.pc.toNat + 1)
    let b := Memory.read s.mem (s.pc.toNat + 2)
    s.running = true ∧
    ((254 ≤ s.pc.toNat ∧ t = s.raise (.memoryAddressOutOfRange (max s.pc.toNat 256))) ∨
     (s.pc.toNat ≤ 253 ∧ dispatch op = none ∧ t = s.raise (.unrecognizedOpcode op)) ∨
     (s.pc.toNat ≤ 253 ∧ op = 0x01 ∧ t = s.applyResult ⟨s.regs, none, 0, false⟩) ∨
     (s.pc.toNat ≤ 253 ∧ op = 0x82 ∧ ∃ i : Fin 8, a.toNat = i.val ∧
       t = s.applyResult ⟨writeReg s.regs i b, none, 3, true⟩) ∨
     (s.pc.toNat ≤ 253 ∧ op = 0x47 ∧ ∃ i : Fin 8, a.toNat = i.val ∧
       t = s.applyResult ⟨s.regs, some (readReg s.regs i), 2, true⟩) ∨
     (s.pc.toNat ≤ 253 ∧ op = 0xA2 ∧ ∃ i j : Fin 8, a.toNat = i.val ∧ b.toNat = j.val ∧
       t = s.applyResult ⟨writeReg s.regs i (productMod256 (readReg s.regs i) (readReg s.regs j)), none, 3, true⟩) ∨
     (s.pc.toNat ≤ 253 ∧ (op = 0x82 ∨ op = 0x47 ∨ op = 0xA2) ∧ 8 ≤ a.toNat ∧
       t = s.raise (.registerIndexOutOfRange a)) ∨
     (s.pc.toNat ≤ 253 ∧ op = 0xA2 ∧ a.toNat < 8 ∧ 8 ≤ b.toNat ∧ t = s.raise (.registerIndexOutOfRange b))) := by
  intro op a b
  obtain ⟨hr, h⟩ := step_next_cases h
  refine ⟨hr, ?_⟩
  rcases fetchInstr_cases s with ⟨hp, e⟩ | ⟨hp, hd, e⟩ | ⟨o, hp, hb, e⟩
  · rcases h with ⟨k, hk, ht⟩ | ⟨i, hi, -⟩
    · cases e.symm.trans hk; exact .inl ⟨hp, ht⟩
    · cases e.symm.trans hi
  · rcases h with ⟨k, hk, ht⟩ | ⟨i, hi, -⟩
    · cases e.symm.trans hk; exact .inr (.inl ⟨hp, hd, ht⟩)
    · cases e.symm.trans hi
  · rcases h with ⟨k, hk, -⟩ | ⟨i, hi, ht⟩
    · cases e.symm.trans hk
    · cases e.symm.trans hi
      rw [ht]
      right; right
      cases o with
      | hlt => exact .inl ⟨hp, hb, rfl⟩
      | ldi =>
        rcases ldiHandler_cases a b s.regs with ⟨i, hi, e⟩ | ⟨h8, e⟩
        · exact .inr (.inl ⟨hp, hb, i, hi, congrArg (finishCycle s) e⟩)
        · exact .inr (.inr (.inr (.inr (.inl ⟨hp, .inl hb, h8, congrArg (finishCycle s) e⟩))))
      | prn =>
        rcases prnHandler_cases a s.regs with ⟨i, hi, e⟩ | ⟨h8, e⟩
        · exact .inr (.inr (.inl ⟨hp, hb, i, hi, congrArg (finishCycle s) e⟩))
        · exact .inr (.inr (.inr (.inr (.inl ⟨hp, .inr (.inl hb), h8, congrArg (finishCycle s) e⟩))))
      | mul =>
        rcases mulHandler_cases a b s.regs with ⟨i, j, hi, hj, e⟩ | ⟨h8, e⟩ | ⟨h7, h8, e⟩
        · exact .inr (.inr (.inr (.inl ⟨hp, hb, i, j, hi, hj, congrArg (finishCycle s) e⟩)))
        · exact .inr (.inr (.inr (.inr (.inl ⟨hp, .inr (.inr hb), h8, congrArg (finishCycle s) e⟩))))
        · exact .inr (.inr (.inr (.inr (.inr ⟨hp, hb, h7, h8, congrArg (finishCycle s) e⟩))))

/-- Inside the fetch window the sum of step 5 is exact: nine bits hold it (40_execution_cycle.md R86). -/
theorem pc_add_width {p : ProgramCounter} {k : Nat} (hp : p.toNat ≤ 253) (hk : k ≤ 3) :
    (p + BitVec.ofNat 9 k).toNat = p.toNat + k := by
  rw [BitVec.toNat_add, BitVec.toNat_ofNat]
  omega

end Sys2Proof.Machine
end

