-- ==== Sys2Proof/Laws/Run.lean ====
section
/-! SUPPORT. A run unfolded one cycle at a time (spec/40_execution_cycle.md R89), so that claims over runs are inductions
over the number of cycles. -/

namespace Sys2Proof.Machine

/-- The host's run of any machine, one step unfolded. -/
theorem run_succ (M : Host.Core) (n : Nat) (s : M.State) :
    M.run (n + 1) s = match M.step s with
      | .next u => M.run n u
      | .fault r => .fault r
      | .refused r => .refused r := rfl

theorem runsTo_zero {s t : State} : RunsTo 0 s t ↔ t = s :=
  ⟨fun h => (Host.Outcome.next.inj h).symm, fun h => h ▸ rfl⟩

/-- A run of one more cycle is a step to a next state and a run from there. -/
theorem runsTo_succ {n : Nat} {s t : State} :
    RunsTo (n + 1) s t ↔ ∃ u, step s = .next u ∧ RunsTo n u t := by
  have e := run_succ Sys2Proof.core n s
  have hs : Sys2Proof.core.step s = step s := rfl
  unfold RunsTo
  rw [e, hs]
  cases step s with
  | next u => exact ⟨fun h => ⟨u, rfl, h⟩, fun ⟨_, hu, h⟩ => by cases hu; exact h⟩
  | fault r => exact ⟨fun h => (nomatch h), fun ⟨_, hu, _⟩ => (nomatch hu)⟩
  | refused r => exact ⟨fun h => (nomatch h), fun ⟨_, hu, _⟩ => (nomatch hu)⟩

end Sys2Proof.Machine
end

