-- ==== Sys2Proof/Laws/Stack.lean ====
section
/-! SUPPORT. The unwired stack procedures cannot fault: a register is a byte and every byte is an address
(spec/45_unwired.md R131, R132). -/

namespace Sys2Proof.Machine

theorem push_eq (v : Byte) (s : State) :
    push v s = .ok { s with
      mem := Memory.write s.mem (readReg s.regs Config.spIndex).toNat v
      regs := writeReg s.regs Config.spIndex (readReg s.regs Config.spIndex - 1) } := by
  have h : (readReg s.regs Config.spIndex).toNat < 256 := (readReg s.regs Config.spIndex).isLt
  simp only [push, memWrite_inRange s.mem v h]

theorem pop_eq (s : State) :
    pop s = .ok (Memory.read s.mem (readReg s.regs Config.spIndex + 1).toNat,
      { s with
        mem := Memory.write s.mem (readReg s.regs Config.spIndex + 1).toNat 0
        regs := writeReg s.regs Config.spIndex (readReg s.regs Config.spIndex + 1) }) := by
  have h : (readReg s.regs Config.spIndex + 1).toNat < 256 := (readReg s.regs Config.spIndex + 1).isLt
  simp only [pop, memRead_inRange s.mem h, memWrite_inRange s.mem 0 h]

end Sys2Proof.Machine
end

