-- ==== Sys2Proof/Tests/Slice0.lean ====
section
/-! SUPPORT. The model's own tests: expected results are the vectors of spec/95_test_vectors.md (V series) or words written
out from the encoding tables, and one witness for each clause of each statement that has hypotheses. -/

namespace Sys2Proof.Tests

open Sys2Proof.Machine

/-- The reset state at `pc` with code stored there. -/
def at_ (pc : ProgramCounter) (code : List Byte) : State :=
  { State.reset with pc := pc, mem := writeBytes [] pc.toNat code }

theorem at_zero_mem (code : List Byte) : (at_ 0 code).mem = writeBytes [] 0 code := rfl
theorem at_running (pc : ProgramCounter) (code : List Byte) : (at_ pc code).running = true := rfl
theorem at_pc (pc : ProgramCounter) (code : List Byte) : (at_ pc code).pc.toNat = pc.toNat := rfl

/-- The registers 1 to 8, in order. -/
def oneToEight : Regs := #v[1, 2, 3, 4, 5, 6, 7, 8]

/-- The next state of an outcome, if it has one. -/
def after : Host.Outcome State Fault Refusal → Option State
  | .next s => some s
  | _ => none

/-- A state stopped by a fault of kind `k`. -/
def stopped (s : State) (k : FaultKind) : State := { s with running := false, fault := some k }

/-! ## Well-formedness: one ill-formed term for each check, refused -/

theorem test_illFormed_ldi : (Instr.ldi 8 0).wellFormed = false := by decide
theorem test_illFormed_prn : (Instr.prn 255).wellFormed = false := by decide
theorem test_illFormed_mul_first : (Instr.mul 8 0).wellFormed = false := by decide
theorem test_illFormed_mul_second : (Instr.mul 0 8).wellFormed = false := by decide
theorem test_wellFormed : (Instr.mul 7 7).wellFormed = true ∧ (Instr.ldi 7 255).wellFormed = true := by decide

/-! ## Decoding: words written out from 30_encoding.md R65 (vectors V-D) -/

theorem test_decode_hlt : decode 0b00000001 0b11111111 0b11111111 = .ok .hlt := by decide
theorem test_decode_ldi : decode 0b10000010 0b00000011 0b00101010 = .ok (.ldi 3 42) := by decide
theorem test_decode_prn : decode 0b01000111 0b00000101 0b11111111 = .ok (.prn 5) := by decide
theorem test_decode_mul : decode 0b10100010 0b00000010 0b00000110 = .ok (.mul 2 6) := by decide
theorem test_decode_unrecognised : decode 0b01010100 0 0 = .error (.unrecognized 0x54) := by decide

/-- The neighbours of the four bytes (V-E4) and the bytes other machines of the family use (V-E5) select nothing. -/
theorem test_dispatch_neighbours :
    ([0x00, 0x02, 0x81, 0x83, 0x46, 0x48, 0xA1, 0xA3, 0xA0, 0x45, 0x50, 0x11, 0xA7, 0x55, 0x56, 0xFF] : List Byte).all
      (fun b => (dispatch b).isNone) = true := by decide

/-- The table's words: first byte lowest, bits above the row's width zero (spec/opcode_table.json). -/
theorem test_tableWord :
    decodeTableWord 8 0x01 = some .hlt ∧ decodeTableWord 24 0x2A0382 = some (.ldi 3 42) ∧
    decodeTableWord 16 0x0547 = some (.prn 5) ∧ decodeTableWord 24 0x0602A2 = some (.mul 2 6) ∧
    decodeTableWord 8 0x54 = none := by decide

theorem test_withFetchWord_runs :
    after (step (State.reset.withFetchWord 24 0x2A0382)) = after (exec (.ldi 3 42) (at_ 0 [0x82, 3, 42])) := by decide

/-! ## One step (vectors V-H, V-L, V-P, V-M, V-E, V-F) -/

/-- V-H2: the operand bytes of HLT are ignored, though FF would be a bad index. -/
theorem test_hlt_ignores_operands :
    after (step { at_ 5 [0x01, 0xFF, 0xFF] with regs := oneToEight }) =
      some { at_ 5 [0x01, 0xFF, 0xFF] with regs := oneToEight, running := false } := by decide

/-- V-H4: a HLT at 254 is not a clean halt. -/
theorem test_hlt_at_254 :
    after (step (at_ 254 [0x01])) = some (stopped (at_ 254 [0x01]) (.memoryAddressOutOfRange 256)) := by decide

/-- V-L7: a LDI at 253 runs, and pc becomes 256. -/
theorem test_ldi_at_253 :
    (after (step (at_ 253 [0x82, 0x07, 0xFF]))).map (fun s => (s.regs, s.pc.toNat, s.running)) =
      some (#v[0, 0, 0, 0, 0, 0, 0, 255], 256, true) := by decide

/-- V-L5: register index 8. -/
theorem test_ldi_bad_index :
    after (step (at_ 0 [0x82, 0x08, 0x01])) =
      some (stopped (at_ 0 [0x82, 0x08, 0x01]) (.registerIndexOutOfRange 8)) := by decide

/-- V-P3 with an earlier output: operand_b is ignored, the value goes to the end of out. -/
theorem test_prn_appends :
    (after (step { at_ 0 [0x47, 0x07, 0xA2] with regs := oneToEight, out := [5] })).map
      (fun s => (s.out, s.pc.toNat, s.running)) = some ([5, 8], 2, true) := by decide

/-- V-P5: register index 8 prints nothing. -/
theorem test_prn_bad_index :
    after (step { at_ 0 [0x47, 0x08, 0x00] with out := [5] }) =
      some (stopped { at_ 0 [0x47, 0x08, 0x00] with out := [5] } (.registerIndexOutOfRange 8)) := by decide

/-- V-M8: 200 * 2 = 400 gives 144, and the second register stays. -/
theorem test_mul_wraps :
    (after (step { at_ 0 [0xA2, 0x00, 0x01] with regs := #v[200, 2, 0, 0, 0, 0, 0, 0] })).map
      (fun s => (s.regs, s.pc.toNat)) = some (#v[144, 2, 0, 0, 0, 0, 0, 0], 3) := by decide

/-- V-M18: both indices bad, operand_a is reported. -/
theorem test_mul_bad_indices :
    after (step (at_ 0 [0xA2, 0x0A, 0x0B])) =
      some (stopped (at_ 0 [0xA2, 0x0A, 0x0B]) (.registerIndexOutOfRange 10)) := by decide

/-- V-M13: the same register twice is squared. -/
theorem test_alu_square : (aluApply .mul #v[0, 0, 255, 0, 0, 0, 0, 0] 2 2) = .ok #v[0, 0, 1, 0, 0, 0, 0, 0] := by decide

/-- V-A3 and V-A9: the adder wraps, and an unsupported kind is reported before bad indices. -/
theorem test_alu_add_and_sub :
    aluApply .add #v[200, 100, 0, 0, 0, 0, 0, 0] 0 1 = .ok #v[44, 100, 0, 0, 0, 0, 0, 0] ∧
    aluApply .sub oneToEight 9 9 = .error (.unsupportedOperation .sub) := by decide

/-- V-E6: the operands of an unrecognised byte are not examined. -/
theorem test_unrecognised :
    after (step (at_ 0 [0x54, 0xFF, 0xFF])) =
      some (stopped (at_ 0 [0x54, 0xFF, 0xFF]) (.unrecognizedOpcode 0x54)) := by decide

/-- V-F5: the fetch check comes before the dispatch. -/
theorem test_fetch_before_dispatch :
    after (step (at_ 254 [0x54])) = some (stopped (at_ 254 [0x54]) (.memoryAddressOutOfRange 256)) := by decide

/-- 43_prn.md R111: the source's numerals `8` and `90`, and three digits. -/
theorem test_renderOut : renderOut [8, 90, 0, 205] =
    ['8', '\n', '9', '0', '\n', '0', '\n', '2', '0', '5', '\n'] := by decide

/-- 20_memory.md R42 in canonical form: writing the reset contents removes the cell. -/
theorem test_write_zero_removes : Memory.write [(3, 1), (5, 2)] 3 0 = [(5, 2)] ∧
    Memory.write [(3, 1), (5, 2)] 4 9 = [(3, 1), (4, 9), (5, 2)] := by decide

/-- Each malformed memory is refused: out of order, repeated, holding the reset contents, outside the address space. -/
theorem test_memory_wf_refuses :
    Memory.wf [(5, 1), (3, 2)] = false ∧ Memory.wf [(5, 1), (5, 2)] = false ∧ Memory.wf [(5, 0)] = false ∧
    Memory.wf [(256, 1)] = false ∧ Memory.wf [(0, 1), (255, 2)] = true := by decide

/-! ## Witnesses: states and operands that meet the hypotheses of each statement, each clause at a boundary -/

/-- FirstStateHoldsImageThenZeros: an image of 256 bytes, its index clauses at 0 and 255; LongerImageIsRefused: one of
257. -/
theorem witness_images :
    (List.replicate 256 (1 : Byte)).length ≤ 256 ∧ 255 < (List.replicate 256 (1 : Byte)).length ∧
    256 < (List.replicate 257 (1 : Byte)).length ∧ ([] : List Byte).length ≤ 0 ∧ ([1] : List Byte).length ≤ 255 := by
  refine ⟨?_, ?_, ?_, by decide, by decide⟩ <;> rw [List.length_replicate] <;> decide

/-- StepKeepsInvariant, at pc 253, for an instruction that goes on and for HLT. -/
theorem witness_invariant_step :
    (at_ 253 [0x82, 0x00, 0x02]).Inv ∧ (after (step (at_ 253 [0x82, 0x00, 0x02]))).isSome ∧
    (at_ 253 [0x01]).Inv ∧ (after (step (at_ 253 [0x01]))).isSome := by decide

/-- ReachableStatesMeetInvariant and RunNeverChangesMemory: one cycle from a loaded image. -/
theorem witness_reachable : ∃ s t, firstState [0x01] = some s ∧ RunsTo 1 s t :=
  ⟨_, _, rfl, runsTo_succ.2 ⟨_, rfl, runsTo_zero.2 rfl⟩⟩

/-- MemReadGivesCellOrRaises, MemWriteChangesOneCellOrRaises: a canonical memory, the addresses 255 and 256. -/
theorem witness_memory : Memory.wf [(0, 1), (255, 2)] = true ∧ 255 ≤ 255 ∧ 256 ≤ 256 := by decide

/-- MemWriteChangesOneCellOrRaises, the frames, HandlersSeeNeitherPcNorMemory, RaisesExactlyWhenIllFormed and the last
clause of HltStopsTheMachineCleanly: every instruction answers a next state from a state with no fault, with good indices
and with bad ones. -/
theorem witness_exec_next :
    ([.hlt, .ldi 7 255, .prn 7, .mul 7 7, .ldi 8 0, .prn 8, .mul 8 0, .mul 0 8] : List Instr).all
      (fun i => (after (exec i State.reset)).isSome) = true ∧ State.reset.fault = none := by decide

/-- CanonicalMemoriesReadingAlikeAreEqual. -/
theorem witness_equal_memories : ∃ m m' : Memory, Memory.wf m = true ∧ Memory.wf m' = true ∧
    ∀ a, a < 256 → Memory.read m a = Memory.read m' a :=
  ⟨Memory.write [(5, 2)] 3 1, [(3, 1), (5, 2)], by decide, by decide, fun _ _ => rfl⟩

/-- DecodeAndEncodeAgree, second clause. -/
theorem witness_decodes : decode 0xA2 0xFF 0x00 = .ok (.mul 255 0) := by decide

/-- StoredInstructionIsTheOneRun, StepRunsTheDecodedInstruction: the last address of the fetch window. -/
theorem witness_window_end :
    (at_ 253 [0x47, 0x07]).running = true ∧ Memory.wf (at_ 253 [0x47, 0x07]).mem = true ∧
    (at_ 253 [0x47, 0x07]).pc.toNat ≤ 253 ∧
    decode (Memory.read (at_ 253 [0x47, 0x07]).mem 253) (Memory.read (at_ 253 [0x47, 0x07]).mem 254)
      (Memory.read (at_ 253 [0x47, 0x07]).mem 255) = .ok (.prn 7) := by decide

/-- FetchWindowEndsAt253 and FirstRaiseWins, fetch clauses: pc 253, 254, 256 and 257 while running. -/
theorem witness_fetch_bounds :
    (at_ 253 []).pc.toNat ≤ 253 ∧ 254 ≤ (at_ 254 []).pc.toNat ∧ (at_ 254 []).pc.toNat ≤ 256 ∧
    254 ≤ (at_ 256 []).pc.toNat ∧ (at_ 256 []).pc.toNat ≤ 256 ∧ 257 ≤ (at_ 257 []).pc.toNat ∧
    (at_ 254 []).running = true := by decide

/-- UnrecognisedByteRaises and FirstRaiseWins, dispatch clause: the zero byte at 253. -/
theorem witness_unrecognised :
    (at_ 253 []).running = true ∧ (at_ 253 []).pc.toNat ≤ 253 ∧ Memory.read (at_ 253 []).mem 253 ≠ 0x01 ∧
    Memory.read (at_ 253 []).mem 253 ≠ 0x82 ∧ Memory.read (at_ 253 []).mem 253 ≠ 0x47 ∧
    Memory.read (at_ 253 []).mem 253 ≠ 0xA2 ∧ dispatch (Memory.read (at_ 253 []).mem 253) = none := by decide

/-- OneCycleChangesAtMostOneRegister, PcAdvancesByTheWidth, FaultingCycleChangesOnlyRunningAndFault: one cycle of each
instruction from a state with no fault, at pc 0 and at 253, and one that faults. -/
theorem witness_cycles :
    ([[0x01], [0x82, 0, 1], [0x47, 0], [0xA2, 0, 1]] : List (List Byte)).all
      (fun code => (after (step (at_ 0 code))).any (fun t => t.fault = none) &&
        (after (step (at_ 253 code))).any (fun t => t.fault = none)) = true ∧ (at_ 0 []).fault = none ∧
    (after (step (at_ 0 [0x82, 9, 1]))).any (fun t => t.fault ≠ none) = true := by decide

/-- HltStopsTheMachineCleanly: a HLT held at 253, at 254 and at 255, and a clean halt reached. -/
theorem witness_hlt_held :
    (at_ 253 [0x01]).HoldsAtPc .hlt ∧ (at_ 254 [0x01]).HoldsAtPc .hlt ∧ (at_ 255 [0x01]).HoldsAtPc .hlt ∧
    (after (step (at_ 253 [0x01]))).any (fun t => t.CleanHalt) = true := by
  decide

/-- LdiLoadsTheImmediate: a LDI held at 253; one held at 254, whose third byte would lie at 256, is 0. -/
theorem witness_ldi_held : (at_ 253 [0x82, 7, 255]).HoldsAtPc (.ldi 7 255) ∧ (at_ 254 [0x82, 7]).HoldsAtPc (.ldi 7 0) := by decide

/-- PrnEmitsTheRegister: a PRN held at 253 and at 254. -/
theorem witness_prn_held : (at_ 253 [0x47, 7]).HoldsAtPc (.prn 7) ∧ (at_ 254 [0x47, 7]).HoldsAtPc (.prn 7) := by decide

/-- MulMultipliesRegisters: a MUL held at 253 and one held at 254. -/
theorem witness_mul_held : (at_ 253 [0xA2, 7, 7]).HoldsAtPc (.mul 7 7) ∧ (at_ 254 [0xA2, 7]).HoldsAtPc (.mul 7 0) := by decide

/-- The operand clauses of LDI, PRN, MUL, BadRegisterIndexRaises and the ALU rules: 0 and 7 name registers, 8 and 255 do
not; the state of RaisesExactlyWhenIllFormed has no fault. -/
theorem witness_operands :
    (0 : Byte).toNat = (0 : Fin 8).val ∧ (7 : Byte).toNat = (7 : Fin 8).val ∧ (7 : Byte).toNat ≤ 7 ∧
    8 ≤ (8 : Byte).toNat ∧ 8 ≤ (255 : Byte).toNat ∧ State.reset.fault = none := by decide

/-- UnsupportedKindRaisesButNoProgramCan, FirstRaiseWins: a kind that is neither ADD nor MUL, and a cycle from a state
whose fault is not that kind. -/
theorem witness_unsupported :
    AluOp.cmp ≠ .add ∧ AluOp.cmp ≠ .mul ∧ State.reset.fault ≠ some (.unsupportedOperation .cmp) ∧
    (after (step State.reset)).isSome = true := by decide

/-- FaultsAreExactlyThoseOfTheTable: each of its four conditions in a running state with no fault. -/
theorem witness_fault_table :
    254 ≤ (at_ 254 []).pc.toNat ∧ dispatch (Memory.read (at_ 253 []).mem 253) = none ∧
    8 ≤ (Memory.read (at_ 253 [0x47, 8]).mem 254).toNat ∧
    (Memory.read (at_ 253 [0xA2, 7, 8]).mem 254).toNat ≤ 7 ∧ 8 ≤ (Memory.read (at_ 253 [0xA2, 7, 8]).mem 255).toNat ∧
    (at_ 253 [0xA2, 7, 8]).running = true ∧ (at_ 253 [0xA2, 7, 8]).fault = none := by decide

/-- HaltedStateHasNoCycle: a halted state, and a run (of no cycle) from it. -/
theorem witness_halted : ∃ s : State, s.running = false ∧ RunsTo 0 s s :=
  ⟨{ State.reset with running := false }, rfl, runsTo_zero.2 rfl⟩

/-- EveryRunEndsWithin128Cycles: a cycle after which the machine is running. -/
theorem witness_running_on : ∃ t, RunsTo 1 (at_ 253 [0x47, 0]) t ∧ t.running = true :=
  ⟨_, runsTo_succ.2 ⟨_, rfl, runsTo_zero.2 rfl⟩, rfl⟩

/-- The code of P9: 127 copies of `PRN R0` at addresses 0 to 253. -/
def prints : List Byte := (List.range 254).map fun i => if i % 2 = 0 then 0x47 else 0x00

theorem prints_read {i : Nat} (h : i < 254) :
    Memory.read (writeBytes [] 0 prints) i = if i % 2 = 0 then 0x47 else 0x00 := by
  have hl : prints.length = 254 := by simp only [prints, List.length_map, List.length_range]
  have := writeBytes_read_inside (m := []) (a := 0) (bs := prints) rfl (i := i) (by omega) (by omega)
  rw [Nat.zero_add] at this
  rw [this]
  simp only [prints, List.getElem_map, List.getElem_range]

/-- One cycle of P9: at an even pc below 254 the machine goes on to pc + 2 with the same memory. -/
theorem prints_step {s : State} {k : Nat} (hm : s.mem = writeBytes [] 0 prints) (hr : s.running = true)
    (hp : s.pc.toNat = 2 * k) (hk : k < 127) :
    ∃ t, step s = .next t ∧ t.mem = writeBytes [] 0 prints ∧ t.running = true ∧ t.pc.toNat = 2 * (k + 1) := by
  have h0 : Memory.read s.mem s.pc.toNat = Opcode.prn.byte := by
    rw [hm, hp, prints_read (by omega), if_pos (by omega)]; rfl
  have h1 : Memory.read s.mem (s.pc.toNat + 1) = 0 := by
    rw [hm, hp, prints_read (by omega), if_neg (by omega)]
  have hf : fetchInstr s = .ok (.prn 0) := by
    simp [fetchInstr, fetchWindow_inside (s := s) (by omega), h0, h1,
      decode_of_dispatch (dispatch_byte .prn), Opcode.withOperands]
  have hpc := pc_add_width (p := s.pc) (k := 2) (by omega) (by omega)
  exact ⟨_, (step_fetch_ok hr hf).trans (exec_eq _ s), (finishCycle_mem s _).trans hm, rfl, hpc.trans (by omega)⟩

theorem prints_run {n k : Nat} {s : State} (hm : s.mem = writeBytes [] 0 prints) (hr : s.running = true)
    (hp : s.pc.toNat = 2 * k) (hk : k + n ≤ 127) :
    ∃ t, RunsTo n s t ∧ t.running = true := by
  induction n generalizing s k with
  | zero => exact ⟨s, runsTo_zero.2 rfl, hr⟩
  | succ n ih =>
    obtain ⟨u, hu, hm', hr', hp'⟩ := prints_step hm hr hp (by omega)
    obtain ⟨t, ht, h⟩ := ih hm' hr' hp' (by omega)
    exact ⟨t, runsTo_succ.2 ⟨u, hu, ht⟩, h⟩

/-- EveryRunEndsWithin128Cycles at its bound: the run of P9 is still running after 127 cycles (95_test_vectors.md P9). -/
theorem witness_longest_run : ∃ t, RunsTo 127 (at_ 0 prints) t ∧ t.running = true :=
  prints_run (k := 0) (at_zero_mem prints) (at_running 0 prints) (at_pc 0 prints) (by omega)

/-- OutGrowsByPrnAloneAndIsNeverRead: a PRN of register 7 at 253 that answers a next state with another out. -/
theorem witness_prn_step :
    (at_ 253 [0x47, 7]).pc.toNat ≤ 253 ∧ Memory.read (at_ 253 [0x47, 7]).mem 253 = 0x47 ∧
    (Memory.read (at_ 253 [0x47, 7]).mem 254).toNat = (7 : Fin 8).val ∧
    (after (step (at_ 253 [0x47, 7]))).any (fun t => t.out ≠ []) = true := by decide

/-- AgreeingStatesRunAlike and the last clause of OutGrowsByPrnAloneAndIsNeverRead: two states that differ in out. -/
theorem witness_same_machine : ∃ t, SameMachine (at_ 0 [0x47, 0]) { at_ 0 [0x47, 0] with out := [1, 2] } ∧
    RunsTo 1 (at_ 0 [0x47, 0]) t :=
  ⟨_, by decide, runsTo_succ.2 ⟨_, rfl, runsTo_zero.2 rfl⟩⟩

/-- CycleReadsOnlyThreeCells: two memories that differ at address 3 only, and a cycle at 0. -/
theorem witness_other_memory :
    Memory.read [(0, 0x47), (3, 9)] 0 = Memory.read (at_ 0 [0x47]).mem 0 ∧
    Memory.read [(0, 0x47), (3, 9)] 1 = Memory.read (at_ 0 [0x47]).mem 1 ∧
    Memory.read [(0, 0x47), (3, 9)] 2 = Memory.read (at_ 0 [0x47]).mem 2 ∧
    Memory.read [(0, 0x47), (3, 9)] 3 ≠ Memory.read (at_ 0 [0x47]).mem 3 ∧
    (after (step (at_ 0 [0x47]))).isSome = true := by decide

/-- MemoryOperationsKeepCanonicalForm: a canonical memory whose write completes at the last address, and the reset state
with a load, a push, a pop and an instruction that complete. -/
theorem witness_canonical :
    Memory.wf [(5, 2)] = true ∧ (memWrite [(5, 2)] 255 1).isOk = true ∧ Memory.wf State.reset.mem = true ∧
    (State.reset.load [1]).isSome = true ∧ (push 9 State.reset).isOk = true ∧ (pop State.reset).isOk = true ∧
    (after (exec .hlt State.reset)).isSome = true := by decide

/-- PushWritesThenDecrements, PopIncrementsReadsAndZeroes, PopUndoesPush: the reset state, whose stack pointer is 0. -/
theorem witness_push : Memory.wf State.reset.mem = true ∧ ∃ t, push 9 State.reset = .ok t :=
  ⟨rfl, _, push_eq 9 State.reset⟩

end Sys2Proof.Tests
end

section
/-! PROOFS of the state family (spec/10_state.md): the values at reset (R34), how `pc` advances (R24) and how `out`
grows (R30). -/

namespace Sys2Proof.Machine

/-! ## Reset -/

/-- Every register is zero at reset. -/
@[simp] theorem readReg_reset (i : Fin 8) : readReg State.reset.regs i = 0 := by
  simp [readReg, State.reset]

/-- Every cell of the address space reads zero at reset. -/
theorem memRead_reset {a : Nat} (ha : a < 256) : memRead State.reset.mem a = .ok 0 :=
  memRead_inRange _ ha

/-- Settles O1, field by field. -/
theorem resetLeavesTheStatedValues : Obligations.ResetLeavesTheStatedValues :=
  ⟨readReg_reset, State.reset_pc, State.reset_running, State.reset_fault, fun _ => memRead_reset, State.reset_out⟩

/-! ## The program counter -/

/-- A cycle either raises a fault or, with the fault record kept, advances `pc` by the exact width of the instruction
whose opcode byte stands there and leaves `running` as its handler says (40_execution_cycle.md R86). -/
theorem step_raise_or_advance {s t : State} (h : step s = .next t) :
    (∃ k, t = s.raise k) ∨
    (t.fault = s.fault ∧ s.pc.toNat ≤ 253 ∧ (
      (Memory.read s.mem s.pc.toNat = 0x01 ∧ t.pc.toNat = s.pc.toNat ∧ t.running = false) ∨
      (Memory.read s.mem s.pc.toNat = 0x47 ∧ t.pc.toNat = s.pc.toNat + 2 ∧ t.running = true) ∨
      (Memory.read s.mem s.pc.toNat = 0x82 ∧ t.pc.toNat = s.pc.toNat + 3 ∧ t.running = true) ∨
      (Memory.read s.mem s.pc.toNat = 0xA2 ∧ t.pc.toNat = s.pc.toNat + 3 ∧ t.running = true))) := by
  obtain ⟨-, ⟨-, ht⟩ | ⟨-, -, ht⟩ | ⟨hp, hb, rfl⟩ | ⟨hp, hb, _, -, rfl⟩ | ⟨hp, hb, _, -, rfl⟩ |
    ⟨hp, hb, _, _, -, -, rfl⟩ | ⟨-, -, -, ht⟩ | ⟨-, -, -, -, ht⟩⟩ := step_cases h
  · exact .inl ⟨_, ht⟩
  · exact .inl ⟨_, ht⟩
  · exact .inr ⟨rfl, hp, .inl ⟨hb, pc_add_width hp (Nat.zero_le 3), rfl⟩⟩
  · exact .inr ⟨rfl, hp, .inr (.inr (.inl ⟨hb, pc_add_width hp (Nat.le_refl 3), rfl⟩))⟩
  · exact .inr ⟨rfl, hp, .inr (.inl ⟨hb, pc_add_width hp (Nat.le_succ 2), rfl⟩)⟩
  · exact .inr ⟨rfl, hp, .inr (.inr (.inr ⟨hb, pc_add_width hp (Nat.le_refl 3), rfl⟩))⟩
  · exact .inl ⟨_, ht⟩
  · exact .inl ⟨_, ht⟩

/-- Settles O20: a cycle that raises leaves `pc`, every other one starts at 253 or below and adds at most 3. -/
theorem pcAdvancesByTheWidth : Obligations.PcAdvancesByTheWidth := by
  intro s t hs h
  rcases step_raise_or_advance h with ⟨k, rfl⟩ | ⟨hf, hp, hw⟩
  · exact ⟨fun _ => rfl, fun hk => nomatch hk⟩
  · exact ⟨fun hk => absurd (hf.trans hs) hk, fun _ => ⟨by omega, hw⟩⟩

/-! ## The output list -/

/-- A byte of the opcode map inside the fetch window is fetched as its instruction. -/
theorem fetchInstr_of_byte {s : State} {op : Opcode} (hp : s.pc.toNat ≤ 253)
    (hb : Memory.read s.mem s.pc.toNat = op.byte) :
    fetchInstr s = .ok (op.withOperands (Memory.read s.mem (s.pc.toNat + 1)) (Memory.read s.mem (s.pc.toNat + 2))) := by
  simp [fetchInstr, fetchWindow_inside hp, hb, decode_of_dispatch (dispatch_byte op)]

/-- The whole effect of a `PRN` whose operand names a register (43_prn.md R110). -/
theorem exec_prn_ok {a : Byte} {i : Fin 8} (ha : a.toNat = i.val) (s : State) :
    exec (.prn a) s = .next (s.applyResult ⟨s.regs, some (readReg s.regs i), 2, true⟩) := by
  simp [exec_eq, handlerOf, prnHandler, regIndex_ok i ha]

/-- A cycle leaves `out` alone, or it is a `PRN` that appends the value of the register it names. -/
theorem step_out_cases {s t : State} (h : step s = .next t) :
    t.out = s.out ∨ (s.pc.toNat ≤ 253 ∧ Memory.read s.mem s.pc.toNat = 0x47 ∧
      ∃ i : Fin 8, (Memory.read s.mem (s.pc.toNat + 1)).toNat = i.val ∧ t.out = s.out ++ [readReg s.regs i]) := by
  obtain ⟨-, ⟨-, rfl⟩ | ⟨-, -, rfl⟩ | ⟨-, -, rfl⟩ | ⟨-, -, _, -, rfl⟩ | ⟨hp, hb, i, hi, rfl⟩ |
    ⟨-, -, _, _, -, -, rfl⟩ | ⟨-, -, -, rfl⟩ | ⟨-, -, -, -, rfl⟩⟩ := step_cases h
  · exact .inl rfl
  · exact .inl rfl
  · exact .inl (List.append_nil _)
  · exact .inl (List.append_nil _)
  · exact .inr ⟨hp, hb, i, hi, rfl⟩
  · exact .inl (List.append_nil _)
  · exact .inl rfl
  · exact .inl rfl

/-- Steps 1 to 3 of a cycle read only `pc` and memory. -/
theorem fetchInstr_congr {s s' : State} (hp : s.pc = s'.pc) (hm : s.mem = s'.mem) :
    fetchInstr s = fetchInstr s' := by
  simp only [fetchInstr, fetchWindow, hp, hm]

/-- The end of a cycle keeps agreement on everything but `out`, and adds the same values to both output lists. -/
theorem finishCycle_sameMachine {s s' : State} (hs : SameMachine s s') (r : Except FaultKind HandlerResult) :
    SameMachine (finishCycle s r) (finishCycle s' r) ∧
      ∃ ys, (finishCycle s r).out = s.out ++ ys ∧ (finishCycle s' r).out = s'.out ++ ys := by
  obtain ⟨hregs, hpc, -, hfault, hmem⟩ := hs
  cases r with
  | error k => exact ⟨⟨hregs, hpc, rfl, rfl, hmem⟩, [], by simp⟩
  | ok r => exact ⟨⟨rfl, by simp [hpc], rfl, hfault, hmem⟩, r.emitted.toList, rfl, rfl⟩

/-- Two states that agree on everything but `out` make the same cycle and emit the same values (10_state.md R30, R32). -/
theorem step_sameMachine {s s' t : State} (hs : SameMachine s s') (h : step s = .next t) :
    ∃ t', step s' = .next t' ∧ SameMachine t t' ∧ ∃ ys, t.out = s.out ++ ys ∧ t'.out = s'.out ++ ys := by
  have hend := finishCycle_sameMachine hs
  obtain ⟨hregs, hpc, hrun, -, hmem⟩ := hs
  have hfetch := fetchInstr_congr hpc hmem
  obtain ⟨hr, ⟨k, hf, rfl⟩ | ⟨i, hf, rfl⟩⟩ := step_next_cases h
  · exact ⟨_, step_fetch_error (hrun ▸ hr) (hfetch ▸ hf), hend (.error k)⟩
  · refine ⟨_, (step_fetch_ok (hrun ▸ hr) (hfetch ▸ hf)).trans (exec_eq i s'), ?_⟩
    rw [← hregs]
    exact hend _

/-- Settles O39: a `PRN` appends its value by its own rule, `step_out_cases` says that nothing else does, and a cycle
respects agreement on everything but `out`. -/
theorem outGrowsByPrnAloneAndIsNeverRead : Obligations.OutGrowsByPrnAloneAndIsNeverRead := by
  refine ⟨State.reset_out, fun s t i h hp hb hi => ?prn, fun s t h hne => (step_out_cases h).resolve_left hne,
    fun s s' t hs h => ?unread⟩
  case prn =>
    have hr := (step_next_cases h).1
    have hstep := (step_fetch_ok hr (fetchInstr_of_byte (op := .prn) hp hb)).trans (exec_prn_ok hi s)
    cases h.symm.trans hstep
    rfl
  case unread =>
    obtain ⟨t', ht', hsame, -⟩ := step_sameMachine hs h
    exact ⟨t', ht', hsame⟩

end Sys2Proof.Machine
end

section
/-! PROOFS of the memory family (spec/20_memory.md): the two primitives (R41, R42), and that no instruction, cycle or run
writes memory (R44, R55). -/

namespace Sys2Proof.Machine

/-! ## The primitives -/

/-- Settles O7, by the rule of a read inside the address space and the rule of one outside it. -/
theorem memReadGivesCellOrRaises : Obligations.MemReadGivesCellOrRaises :=
  fun m _ => ⟨fun h => memRead_inRange m (Nat.lt_succ_of_le h), memRead_outOfRange m⟩

/-- A write inside the address space completes, its cell then reads as the byte written, and no other address reads
differently (20_memory.md R42). -/
theorem memWrite_inRange_reads {m : Memory} {a : Nat} (v : Byte) (hm : Memory.wf m = true) (ha : a < 256) :
    ∃ m', memWrite m a v = .ok m' ∧ memRead m' a = .ok v ∧ ∀ b, b ≠ a → Memory.read m' b = Memory.read m b :=
  ⟨_, memWrite_inRange m v ha, (memRead_inRange _ ha).trans (congrArg _ (Memory.read_write_same a v hm)),
    fun _ => Memory.read_write_other v⟩

/-! ## Instructions, cycles and runs -/

/-- No instruction writes memory, whether its handler completes or raises: a handler cannot see memory
(40_execution_cycle.md R80). -/
theorem exec_mem {i : Instr} {s t : State} (h : exec i s = .next t) : t.mem = s.mem := by
  rw [exec_eq] at h
  cases h
  exact finishCycle_mem s _

/-- Settles O8: the two rules of a write, and the frame of every instruction. -/
theorem memWriteChangesOneCellOrRaises : Obligations.MemWriteChangesOneCellOrRaises := by
  refine ⟨fun m a v hm => ⟨fun ha => ?inside, fun ha => ?outside⟩, fun i s t h b => ?exec⟩
  case inside => exact memWrite_inRange_reads v hm (Nat.lt_succ_of_le ha)
  case outside => exact memWrite_outOfRange m v ha
  case exec => rw [exec_mem h]

/-- No cycle writes memory, one that faults included. -/
theorem step_mem {s t : State} (h : step s = .next t) : t.mem = s.mem := by
  obtain ⟨-, ⟨k, -, rfl⟩ | ⟨i, -, rfl⟩⟩ := step_next_cases h
  · exact State.raise_mem s k
  · exact finishCycle_mem s _

/-- No run writes memory. -/
theorem runsTo_mem {n : Nat} {s t : State} (h : RunsTo n s t) : t.mem = s.mem := by
  induction n generalizing s with
  | zero => rw [runsTo_zero.1 h]
  | succ n ih =>
    obtain ⟨u, hstep, hrun⟩ := runsTo_succ.1 h
    exact (ih hrun).trans (step_mem hstep)

/-- Settles O11: a run keeps memory whole, so every cell of it. -/
theorem runNeverChangesMemory : Obligations.RunNeverChangesMemory := by
  intro n s t h a
  rw [runsTo_mem h]

end Sys2Proof.Machine
end

section
/-! PROOFS of the encoding family (spec/30_encoding.md): a byte without a row in the opcode map is unrecognised (R66). -/

namespace Sys2Proof

/-- The bytes without a dispatch entry are all but the four opcodes' own. -/
theorem dispatch_eq_none_iff (b : Byte) :
    dispatch b = none ↔ b ≠ 0x01 ∧ b ≠ 0x82 ∧ b ≠ 0x47 ∧ b ≠ 0xA2 := by
  refine ⟨fun h => ?others, fun ⟨hhlt, hldi, hprn, hmul⟩ => ?undispatched⟩
  case others =>
    have hne (op : Opcode) : b ≠ op.byte := fun hb => by simp [hb] at h
    exact ⟨hne .hlt, hne .ldi, hne .prn, hne .mul⟩
  case undispatched =>
    simp only [dispatch, if_neg hhlt, if_neg hldi, if_neg hprn, if_neg hmul]

/-- The numbers of the bytes without a dispatch entry are those below 256 but the four opcodes' own. -/
theorem filter_dispatch_isNone :
    (Finset.range 256).filter (fun n => (dispatch (BitVec.ofNat 8 n)).isNone) =
      Finset.range 256 \ {0x01, 0x82, 0x47, 0xA2} := by
  ext n
  simp only [Finset.mem_filter, Finset.mem_range, Finset.mem_sdiff, Finset.mem_insert, Finset.mem_singleton,
    Option.isNone_iff_eq_none, dispatch_eq_none_iff]
  bv_omega

/-- 252 bytes have no dispatch entry: the 256 byte values less the four of the opcode map (30_encoding.md R66). -/
theorem length_filter_dispatch_isNone :
    ((List.range 256).filter fun n => (dispatch (BitVec.ofNat 8 n)).isNone).length = 252 := by
  calc
    _ = ((Finset.range 256).filter fun n => (dispatch (BitVec.ofNat 8 n)).isNone).card := by
      simp only [Finset.card, Finset.filter, Finset.range, Multiset.range, Multiset.filter_coe, Multiset.coe_card,
        Bool.decide_eq_true]
    _ = (Finset.range 256 \ {0x01, 0x82, 0x47, 0xA2}).card := congrArg _ filter_dispatch_isNone
    _ = 252 := by rw [Finset.card_sdiff_of_subset (by simp [Finset.insert_subset_iff]), Finset.card_range]; rfl

end Sys2Proof

namespace Sys2Proof.Machine

/-- A byte without a dispatch entry inside the fetch window raises at dispatch, whatever the operand bytes are
(40_execution_cycle.md R84). -/
theorem fetchInstr_of_not_dispatch {s : State} (hp : s.pc.toNat ≤ 253)
    (hb : dispatch (Memory.read s.mem s.pc.toNat) = none) :
    fetchInstr s = .error (.unrecognizedOpcode (Memory.read s.mem s.pc.toNat)) := by
  simp [fetchInstr, fetchWindow_inside hp, decode_of_not_dispatch hb]

/-- Settles O18: a byte other than the four opcodes' own is not dispatched, so the cycle ends with its raise. -/
theorem unrecognisedByteRaises : Obligations.UnrecognisedByteRaises := by
  refine ⟨fun s hr hp hhlt hldi hprn hmul => ?_, length_filter_dispatch_isNone⟩
  have hb : dispatch (Memory.read s.mem s.pc.toNat) = none :=
    (dispatch_eq_none_iff _).2 ⟨hhlt, hldi, hprn, hmul⟩
  exact step_fetch_error hr (fetchInstr_of_not_dispatch hp hb)

end Sys2Proof.Machine
end

section
/-! PROOFS of the HLT family (spec/41_hlt.md): the whole effect of HLT, where its cycle faults instead, and that it is the
only way to a clean halt (R100). -/

namespace Sys2Proof.Machine

/-- The whole effect of `HLT`: it ends the run and leaves every other field, `pc` included, because its width is 0. -/
theorem exec_hlt (s : State) : exec .hlt s = .next { s with running := false } := by
  have hpc : s.pc + BitVec.ofNat 9 0 = s.pc := BitVec.add_zero s.pc
  simp [exec_eq, handlerOf, hltHandler, State.applyResult, hpc]

/-- `HLT` occupies one byte, so memory holds it at `pc` exactly when the cell there holds its opcode. -/
theorem holdsAtPc_hlt_iff (s : State) : s.HoldsAtPc .hlt ↔ Memory.read s.mem s.pc.toNat = Opcode.hlt.byte :=
  Fin.forall_fin_one

/-- Outside the fetch window the cycle raises the fetch fault, whatever memory holds (40_execution_cycle.md R83). -/
theorem step_outside {s : State} (hr : s.running = true) (hp : 254 ≤ s.pc.toNat) :
    step s = .next (s.raise (.memoryAddressOutOfRange (max s.pc.toNat 256))) :=
  step_fetch_error hr (by simp [fetchInstr, fetchWindow_outside hp])

/-- A cycle that ends in a clean halt ran a `HLT` inside the fetch window: a raise records a fault, and every other
instruction goes on. -/
theorem hlt_of_step_cleanHalt {s t : State} (h : step s = .next t) (ht : t.CleanHalt) :
    s.HoldsAtPc .hlt ∧ s.pc.toNat ≤ 253 := by
  obtain ⟨hhalted, hnofault⟩ := ht
  rcases step_raise_or_advance h with ⟨k, rfl⟩ | ⟨-, hp, ⟨hb, -, -⟩ | ⟨-, -, hgo⟩ | ⟨-, -, hgo⟩ | ⟨-, -, hgo⟩⟩
  · cases hnofault
  · exact ⟨(holdsAtPc_hlt_iff s).2 hb, hp⟩
  · simp [hgo] at hhalted
  · simp [hgo] at hhalted
  · simp [hgo] at hhalted

/-- Settles O21, clause by clause: the effect of `HLT`, its cycle inside and outside the fetch window, the inversion of a
clean halt, and that a halted machine has no cycle. -/
theorem hltStopsTheMachineCleanly : Obligations.HltStopsTheMachineCleanly := by
  refine ⟨rfl, exec_hlt, fun s hr hheld => ⟨fun hp => ?inside, fun hp hp' => ?outside⟩,
    fun s t => hlt_of_step_cleanHalt, fun s t hf h => ?forGood⟩
  case inside =>
    exact (step_fetch_ok hr (fetchInstr_of_byte hp ((holdsAtPc_hlt_iff s).1 hheld))).trans (exec_hlt s)
  case outside =>
    have hmax : max s.pc.toNat 256 = 256 := by omega
    rw [step_outside hr hp, hmax, State.raise]
  case forGood =>
    cases (exec_hlt s).symm.trans h
    exact ⟨⟨rfl, hf⟩, fun u hu => nomatch (step_halted rfl).symm.trans hu⟩

end Sys2Proof.Machine
end

section
/-! PROOFS of the LDI family (spec/42_ldi.md): the effect of LDI with a good and with a bad register index, and its cycle
inside and outside the fetch window (R105). -/

namespace Sys2Proof.Machine

/-- Byte `k` of an instruction held at `pc` is what memory reads `k` cells above. -/
theorem read_of_holdsAtPc {s : State} {i : Instr} (h : s.HoldsAtPc i) {k : Nat} {v : Byte}
    (hk : (encode i)[k]? = some v) : Memory.read s.mem (s.pc.toNat + k) = v := by
  obtain ⟨hlt, hv⟩ := List.getElem?_eq_some_iff.1 hk
  exact (h ⟨k, hlt⟩).trans hv

/-- The opcode of an instruction held at `pc` makes that instruction of the two bytes that follow it. -/
theorem withOperands_of_holdsAtPc {s : State} {i : Instr} (h : s.HoldsAtPc i) :
    i.opcode.withOperands (Memory.read s.mem (s.pc.toNat + 1)) (Memory.read s.mem (s.pc.toNat + 2)) = i := by
  cases i with
  | hlt => rfl
  | ldi a b => exact congrArg₂ Instr.ldi (read_of_holdsAtPc h rfl) (read_of_holdsAtPc h rfl)
  | prn a => exact congrArg Instr.prn (read_of_holdsAtPc h rfl)
  | mul a b => exact congrArg₂ Instr.mul (read_of_holdsAtPc h rfl) (read_of_holdsAtPc h rfl)

/-- An instruction held at `pc` inside the fetch window is the one fetched. -/
theorem fetchInstr_of_holdsAtPc {s : State} {i : Instr} (hp : s.pc.toNat ≤ 253) (h : s.HoldsAtPc i) :
    fetchInstr s = .ok i := by
  have hop : Memory.read s.mem s.pc.toNat = i.opcode.byte := read_of_holdsAtPc h (k := 0) (by cases i <;> rfl)
  rw [fetchInstr_of_byte hp hop, withOperands_of_holdsAtPc h]

/-- Inside the fetch window the cycle is the meaning of the instruction held at `pc` (40_execution_cycle.md R82). -/
theorem step_of_holdsAtPc {s : State} {i : Instr} (hr : s.running = true) (hp : s.pc.toNat ≤ 253)
    (h : s.HoldsAtPc i) : step s = exec i s :=
  step_fetch_ok hr (fetchInstr_of_holdsAtPc hp h)

/-- The whole effect of an `LDI` whose operand names a register: the immediate is written, and no value is emitted. -/
theorem exec_ldi_ok {a : Byte} {i : Fin 8} (ha : a.toNat = i.val) (b : Byte) (s : State) :
    exec (.ldi a b) s = .next { s with regs := writeReg s.regs i b, pc := s.pc + 3, running := true } := by
  simp [exec_eq, handlerOf, ldiHandler, regIndex_ok i ha, State.applyResult]

/-- An `LDI` whose operand names no register raises (60_exceptions.md R143). -/
theorem exec_ldi_error {a : Byte} (ha : 8 ≤ a.toNat) (b : Byte) (s : State) :
    exec (.ldi a b) s = .next (s.raise (.registerIndexOutOfRange a)) := by
  simp [exec_eq, handlerOf, ldiHandler, regIndex_error ha]

/-- Settles O22, clause by clause: the encoding, the effect of `LDI` with a good and with a bad index, and its cycle
inside and outside the fetch window. -/
theorem ldiLoadsTheImmediate : Obligations.LdiLoadsTheImmediate := by
  refine fun a b s => ⟨rfl, fun i ha => exec_ldi_ok ha b s, fun ha => exec_ldi_error ha b s,
    fun hr hheld => ⟨fun hp => ⟨?cycle, ?exactPc⟩, fun hp => ?outside⟩⟩
  case cycle => exact step_of_holdsAtPc hr hp hheld
  case exactPc => exact pc_add_width hp (Nat.le_refl 3)
  case outside => exact step_outside hr hp

end Sys2Proof.Machine
end

section
/-! PROOFS of the PRN family (spec/43_prn.md): the effect of PRN with a good and with a bad register index, its cycle
inside and outside the fetch window (R110), and the text of the output (R111). -/

namespace Sys2Proof.Machine

/-! ## The instruction -/

/-- A `PRN` whose operand names no register raises, with nothing emitted (60_exceptions.md R143). -/
theorem exec_prn_error {a : Byte} (ha : 8 ≤ a.toNat) (s : State) :
    exec (.prn a) s = .next (s.raise (.registerIndexOutOfRange a)) := by
  simp [exec_eq, handlerOf, prnHandler, regIndex_error ha]

/-- Settles O23, clause by clause: the encoding, the effect of `PRN` with a good and with a bad index, and its cycle
inside and outside the fetch window, which reads three cells though `PRN` has two bytes. -/
theorem prnEmitsTheRegister : Obligations.PrnEmitsTheRegister := by
  refine fun a s => ⟨rfl, fun i ha => exec_prn_ok ha s, fun ha => exec_prn_error ha s,
    fun hr hheld => ⟨fun hp => ⟨?cycle, ?exactPc⟩, fun hp => ?outside⟩⟩
  case cycle => exact step_of_holdsAtPc hr hp hheld
  case exactPc => exact pc_add_width hp (Nat.le_succ 2)
  case outside => exact step_outside hr hp

/-! ## The text of the output -/

/-- The numeral of a byte is the library's decimal numeral of its value, so its laws are the library's. -/
theorem decimalNumeral_eq_toDigits (v : Byte) : decimalNumeral v = Nat.toDigits 10 v.toNat := by
  have hv : v.toNat < 256 := v.isLt
  rw [decimalNumeral]
  split
  case isTrue h => exact (Nat.toDigits_of_lt_base h).symm
  case isFalse h =>
    rw [Nat.toDigits_of_base_le (by decide) (Nat.not_lt.1 h)]
    split
    case isTrue h' => rw [Nat.toDigits_of_lt_base (by omega)]; rfl
    case isFalse h' =>
      rw [Nat.toDigits_of_base_le (by decide) (by omega), Nat.toDigits_of_lt_base (by omega), Nat.div_div_eq_div_mul]
      rfl

/-- A decimal numeral that begins with the digit 0 is that of zero: dropping the last digit of a longer one keeps the
first. -/
theorem eq_zero_of_head?_toDigits {n : Nat} (h : (Nat.toDigits 10 n).head? = some '0') : n = 0 := by
  induction n using Nat.strongRecOn with
  | ind n ih =>
    rcases Nat.lt_or_ge n 10 with hn | hn
    · rw [Nat.toDigits_of_lt_base hn, List.head?_singleton, Option.some_inj] at h
      exact Nat.digitChar_eq_zero.1 h
    · rw [Nat.toDigits_of_base_le (by decide) hn, List.head?_append_of_ne_nil _ Nat.toDigits_ne_nil] at h
      have hquot : n / 10 = 0 := ih (n / 10) (by omega) h
      omega

/-- Every character of a numeral is one of the codes of the digits 0 to 9. -/
theorem toNat_of_mem_decimalNumeral {v : Byte} {c : Char} (hc : c ∈ decimalNumeral v) :
    48 ≤ c.toNat ∧ c.toNat ≤ 57 := by
  rw [decimalNumeral_eq_toDigits] at hc
  exact Char.isDigit_iff_toNat.1 (Nat.isDigit_of_mem_toDigits (by decide) (Nat.le_refl 10) hc)

/-- Only the numeral of 0 begins with the digit 0. -/
theorem decimalNumeral_of_head?_zero {v : Byte} (h : (decimalNumeral v).head? = some '0') :
    decimalNumeral v = ['0'] := by
  rw [decimalNumeral_eq_toDigits] at h ⊢
  rw [eq_zero_of_head?_toDigits h, Nat.toDigits_zero]

/-- Reading the numeral back, digit by digit from the left, gives the byte's value. -/
theorem foldl_decimalNumeral (v : Byte) :
    (decimalNumeral v).foldl (fun n c => 10 * n + (c.toNat - 48)) 0 = v.toNat := by
  rw [decimalNumeral_eq_toDigits]
  exact Nat.ofDigitChars_eq_foldl.symm.trans Nat.ofDigitChars_ten_toDigits

/-- Settles O42: the digits of a line are its numeral's, and the text of the output is its lines in order. -/
theorem outputLinesAreDecimalNumerals : Obligations.OutputLinesAreDecimalNumerals := by
  refine ⟨fun v => ⟨decimalNumeral v, rfl, ?nonempty, fun c => toNat_of_mem_decimalNumeral,
    decimalNumeral_of_head?_zero, foldl_decimalNumeral v⟩, rfl, fun v vs => List.flatMap_cons⟩
  case nonempty =>
    rw [decimalNumeral_eq_toDigits]
    exact Nat.toDigits_ne_nil

end Sys2Proof.Machine
end

section
/-! PROOFS of the MUL family (spec/44_alu_mul.md): the ALU's operations with a result (R116, R117), its unsupported kinds
(R118), and the effect and the cycle of MUL (R122). -/

namespace Sys2Proof.Machine

/-! ## The arithmetic-logic unit -/

section Alu
variable (f : Byte → Byte → Byte) (x : Regs) {ra rb : Byte}

/-- Two good indices: the operation completes with its value in the first register, which is the only one written. -/
theorem aluBinary_ok {i j : Fin 8} (ha : ra.toNat = i.val) (hb : rb.toNat = j.val) :
    aluBinary f x ra rb = .ok (writeReg x i (f (readReg x i) (readReg x j))) := by
  simp [aluBinary, regIndex_ok i ha, regIndex_ok j hb]

/-- A bad first index raises, whatever the second is (44_alu_mul.md R121). -/
theorem aluBinary_error_first (ha : 8 ≤ ra.toNat) :
    aluBinary f x ra rb = .error (.registerIndexOutOfRange ra) := by
  simp [aluBinary, regIndex_error ha]

/-- A bad second index raises once the first is good. -/
theorem aluBinary_error_second (ha : ra.toNat ≤ 7) (hb : 8 ≤ rb.toNat) :
    aluBinary f x ra rb = .error (.registerIndexOutOfRange rb) := by
  simp [aluBinary, regIndex_ok ⟨ra.toNat, Nat.lt_succ_of_le ha⟩ rfl, regIndex_error hb]

/-- The registers after an operation on two good indices, read one by one. -/
theorem aluBinary_reads {i j : Fin 8} (ha : ra.toNat = i.val) (hb : rb.toNat = j.val) :
    ∃ y, aluBinary f x ra rb = .ok y ∧ readReg y i = f (readReg x i) (readReg x j) ∧
      ∀ r : Fin 8, r ≠ i → readReg y r = readReg x r :=
  ⟨_, aluBinary_ok f x ha hb, readReg_writeReg_same x i _, fun _ => readReg_writeReg_other x _⟩

end Alu

/-- Settles O29: the rule of an operation with a result, at the sum modulo 256. -/
theorem aluAddRule : Obligations.AluAddRule := by
  refine fun x ra rb => ⟨fun i j ha hb => ?sum, aluBinary_error_first sumMod256 x, aluBinary_error_second sumMod256 x⟩
  case sum =>
    obtain ⟨y, hy, hi, hframe⟩ := aluBinary_reads sumMod256 x ha hb
    exact ⟨y, hy, hi ▸ sumMod256_toNat _ _, hframe⟩

/-- Settles O30: the rule of an operation with a result, at the product modulo 256. -/
theorem aluMulRule : Obligations.AluMulRule := by
  refine fun x ra rb =>
    ⟨fun i j ha hb => ?product, aluBinary_error_first productMod256 x, aluBinary_error_second productMod256 x⟩
  case product =>
    obtain ⟨y, hy, hi, hframe⟩ := aluBinary_reads productMod256 x ha hb
    exact ⟨y, hy, hi ▸ productMod256_toNat _ _, hframe⟩

/-! ## Unsupported kinds -/

/-- A kind without a result raises before its indices are looked at. -/
theorem aluApply_unsupported {op : AluOp} (hadd : op ≠ .add) (hmul : op ≠ .mul) (x : Regs) (ra rb : Byte) :
    aluApply op x ra rb = .error (.unsupportedOperation op) := by
  cases op with
  | add => exact absurd rfl hadd
  | mul => exact absurd rfl hmul
  | sub | inc | dec | cmp => rfl

/-- A cycle keeps the fault record or records the fault of a fetch, of a dispatch or of a register index: these are all
the kinds a program can raise (60_exceptions.md R146). -/
theorem step_fault_cases {s t : State} (h : step s = .next t) :
    t.fault = s.fault ∨ (∃ a, t.fault = some (.memoryAddressOutOfRange a)) ∨
      (∃ b, t.fault = some (.unrecognizedOpcode b)) ∨ ∃ r, t.fault = some (.registerIndexOutOfRange r) := by
  obtain ⟨-, ⟨-, rfl⟩ | ⟨-, -, rfl⟩ | ⟨-, -, rfl⟩ | ⟨-, -, _, -, rfl⟩ | ⟨-, -, _, -, rfl⟩ |
    ⟨-, -, _, _, -, -, rfl⟩ | ⟨-, -, -, rfl⟩ | ⟨-, -, -, -, rfl⟩⟩ := step_cases h
  · exact .inr (.inl ⟨_, rfl⟩)
  · exact .inr (.inr (.inl ⟨_, rfl⟩))
  · exact .inl rfl
  · exact .inl rfl
  · exact .inl rfl
  · exact .inl rfl
  · exact .inr (.inr (.inr ⟨_, rfl⟩))
  · exact .inr (.inr (.inr ⟨_, rfl⟩))

/-- Settles O31: the kind is examined first, the only ALU kind an instruction passes on is `MUL`, and a raise changes
`running` and `fault` only. -/
theorem unsupportedKindRaisesButNoProgramCan : Obligations.UnsupportedKindRaisesButNoProgramCan := by
  refine ⟨fun op x ra rb hadd hmul => aluApply_unsupported hadd hmul x ra rb, fun s t op h hs ht => ?notRecorded,
    fun op s => finishCycle_error s _⟩
  case notRecorded =>
    rcases step_fault_cases h with hkept | ⟨a, hfetch⟩ | ⟨b, hdispatch⟩ | ⟨r, hindex⟩
    · exact hs (hkept.symm.trans ht)
    · cases hfetch.symm.trans ht
    · cases hdispatch.symm.trans ht
    · cases hindex.symm.trans ht

/-! ## The instruction -/

/-- The whole effect of a `MUL` whose operands name registers, the same one or two: the product is written, and no value
is emitted. -/
theorem exec_mul_ok {a b : Byte} {i j : Fin 8} (ha : a.toNat = i.val) (hb : b.toNat = j.val) (s : State) :
    exec (.mul a b) s = .next { s with
      regs := writeReg s.regs i (productMod256 (readReg s.regs i) (readReg s.regs j))
      pc := s.pc + 3
      running := true } := by
  simp [exec_eq, handlerOf, mulHandler, aluApply, aluBinary_ok productMod256 s.regs ha hb, State.applyResult]

/-- A `MUL` raises whatever fault the ALU raises on its operands, with nothing written. -/
theorem exec_mul_error {a b : Byte} {s : State} {k : FaultKind} (h : aluApply .mul s.regs a b = .error k) :
    exec (.mul a b) s = .next (s.raise k) := by
  simp [exec_eq, handlerOf, mulHandler, h]

/-- Settles O24, clause by clause: the encoding, the effect of `MUL` with good indices and with a bad one in either
operand, and its cycle inside and outside the fetch window. -/
theorem mulMultipliesRegisters : Obligations.MulMultipliesRegisters := by
  refine fun a b s => ⟨rfl, fun i j ha hb => ⟨_, productMod256_toNat _ _, exec_mul_ok ha hb s⟩,
    fun ha => exec_mul_error (aluBinary_error_first _ _ ha),
    fun ha hb => exec_mul_error (aluBinary_error_second _ _ ha hb),
    fun hr hheld => ⟨fun hp => ⟨?cycle, ?exactPc⟩, fun hp => ?outside⟩⟩
  case cycle => exact step_of_holdsAtPc hr hp hheld
  case exactPc => exact pc_add_width hp (Nat.le_refl 3)
  case outside => exact step_outside hr hp

end Sys2Proof.Machine
end

section
/-! PROOFS of the unwired family (spec/45_unwired.md): what the stack procedures push (R131) and pop (R132) change and
leave unchanged. -/

namespace Sys2Proof.Machine

/-- Incrementing a byte is addition modulo 256 (92_eei_decisions.md D2). -/
theorem byte_add_one_toNat (b : Byte) : (b + 1).toNat = (b.toNat + 1) % 256 :=
  BitVec.toNat_add b 1

/-- Decrementing a byte is adding 255 modulo 256 (92_eei_decisions.md D2). -/
theorem byte_sub_one_toNat (b : Byte) : (b - 1).toNat = (b.toNat + 255) % 256 := by
  rw [BitVec.toNat_sub, Nat.add_comm]
  rfl

/-- Settles O43: `push_eq` gives the whole next state, and the rules of a memory write and of a register write say what
it reads as; the address is the stack pointer before the decrement. -/
theorem pushWritesThenDecrements : Obligations.PushWritesThenDecrements := by
  intro v s hm
  refine ⟨_, push_eq v s, ?cell, ?otherCells, ?stackPointer, ?otherRegs, rfl, rfl, rfl, rfl⟩
  case cell => exact Memory.read_write_same _ v hm
  case otherCells => exact fun _ => Memory.read_write_other v
  case stackPointer => exact (congrArg _ (readReg_writeReg_same _ _ _)).trans (byte_sub_one_toNat _)
  case otherRegs => exact fun _ => readReg_writeReg_other _ _

/-- Settles O44: the address is the incremented stack pointer, a byte and so already reduced modulo 256; then `pop_eq`
and the rules of a memory write and of a register write, as for push. -/
theorem popIncrementsReadsAndZeroes : Obligations.PopIncrementsReadsAndZeroes := by
  intro s hm
  rw [← byte_add_one_toNat]
  refine ⟨_, pop_eq s, ?cell, ?otherCells, ?stackPointer, ?otherRegs, rfl, rfl, rfl, rfl⟩
  case cell => exact Memory.read_write_same _ 0 hm
  case otherCells => exact fun _ => Memory.read_write_other 0
  case stackPointer => exact congrArg _ (readReg_writeReg_same _ _ _)
  case otherRegs => exact fun _ => readReg_writeReg_other _ _

end Sys2Proof.Machine
end

section
/-! PROOFS of the exceptions family (spec/60_exceptions.md): bad register indices (R143), the order of the raises in a
cycle and over a run (R147), and the status port's codes (R144). -/

namespace Sys2Proof.Machine

/-! ## The order of the raises -/

/-- The two kinds with a result are one operation that checks its indices in order, at the sum or at the product. -/
theorem aluApply_eq_aluBinary {op : AluOp} (h : op = .add ∨ op = .mul) : ∃ f, aluApply op = aluBinary f := by
  rcases h with rfl | rfl
  · exact ⟨sumMod256, rfl⟩
  · exact ⟨productMod256, rfl⟩

/-- A raise halts the machine, so no cycle follows it: a run raises at most one fault. -/
theorem step_raise_ne_next (s : State) (k : FaultKind) (t : State) : step (s.raise k) ≠ .next t := by
  rw [step_halted (State.raise_running s k)]
  exact nofun

/-- Settles O34, in the order of a cycle: the fetch, the dispatch, the ALU kind, the two indices; then the machine is
halted. -/
theorem firstRaiseWins : Obligations.FirstRaiseWins := by
  refine ⟨fun s hr hp => step_outside hr hp, fun s hr hp hb => ?dispatch,
    fun op x ra rb hadd hmul => aluApply_unsupported hadd hmul x ra rb, fun op x ra rb hop ha => ?firstIndex,
    fun op x ra rb hop ha hb => ?secondIndex, step_raise_ne_next⟩
  case dispatch => exact step_fetch_error hr (fetchInstr_of_not_dispatch hp hb)
  case firstIndex =>
    obtain ⟨f, hf⟩ := aluApply_eq_aluBinary hop
    rw [hf, aluBinary_error_first f x ha]
  case secondIndex =>
    obtain ⟨f, hf⟩ := aluApply_eq_aluBinary hop
    rw [hf, aluBinary_error_second f x ha hb]

/-! ## Bad register indices -/

/-- Settles O32: the handlers of `LDI` and `PRN` check the first operand, and `MUL` raises what the ALU raises on its
operands in order. -/
theorem badRegisterIndexRaises : Obligations.BadRegisterIndexRaises := by
  refine fun a b s => ⟨fun ha => ⟨exec_ldi_error ha b s, exec_prn_error ha s, ?mulFirst⟩, fun ha hb => ?mulSecond,
    fun k => rfl⟩
  case mulFirst => exact exec_mul_error (aluBinary_error_first _ _ ha)
  case mulSecond => exact exec_mul_error (aluBinary_error_second _ _ ha hb)

/-! ## The status port -/

/-- Settles O36: the codes are the table of R144, one by one. -/
theorem faultCodesOfTheStatusPort : Obligations.FaultCodesOfTheStatusPort :=
  ⟨rfl, fun _ => rfl, fun _ => rfl, fun _ => rfl, fun _ => rfl⟩

end Sys2Proof.Machine
end

section
/-! PROOFS of the reset and hazards family (spec/70_reset_and_hazards.md): what the first state of a run holds (R166). -/

namespace Sys2Proof.Machine

/-- The load port accepts an image that fits the address space, and writes it over the reset memory alone. -/
theorem firstState_of_fits {image : List Byte} (h : image.length ≤ 256) :
    firstState image = some { State.reset with mem := writeBytes State.reset.mem 0 image } :=
  if_pos h

/-- Settles O2: memory is the image written over the reset memory from address 0, which puts each byte in its place and
leaves every cell from the image's end on at its reset value. -/
theorem firstStateHoldsImageThenZeros : Obligations.FirstStateHoldsImageThenZeros := by
  intro image hfits
  refine ⟨_, firstState_of_fits hfits, fun i hi => ?image, fun i hi hlast => ?zeros, readReg_reset, State.reset_pc,
    State.reset_running, State.reset_fault, State.reset_out⟩
  case image =>
    have hcell : Memory.read (writeBytes State.reset.mem 0 image) (0 + i) = image[i] :=
      writeBytes_read_inside Memory.wf_nil hi (by omega)
    rw [memRead_inRange _ (by omega), ← hcell, Nat.zero_add]
  case zeros =>
    have hcell : Memory.read (writeBytes State.reset.mem 0 image) i = Memory.read State.reset.mem i :=
      writeBytes_read_outside (.inr (by omega))
    rw [memRead_inRange _ (by omega), hcell, State.reset_mem, Memory.read_nil]
    rfl

end Sys2Proof.Machine
end

section
/-! PROOFS of the decoder and the encoder (spec/30_encoding.md): that they agree (sections 1 to 3), that the decoder is
the opcode map (section 3), and that what stands at `pc` is what a cycle runs. -/

namespace Sys2Proof

/-! ## Decoding and encoding -/

/-- The decoder on an opcode's own byte makes that opcode's instruction, whatever the operand bytes are. -/
theorem decode_byte (op : Opcode) (b1 b2 : Byte) : decode op.byte b1 b2 = .ok (op.withOperands b1 b2) :=
  decode_of_dispatch (dispatch_byte op) b1 b2

/-- The instruction made of two operand bytes is encoded by its opcode byte and those of the two that it uses. -/
theorem encode_withOperands (op : Opcode) (b1 b2 : Byte) :
    encode (op.withOperands b1 b2) = [op.byte, b1, b2].take (op.withOperands b1 b2).format.length := by
  cases op with
  | hlt | ldi | prn | mul => rfl

/-- The fetch window over an encoded instruction decodes to it, whatever two bytes follow. -/
theorem decode_window_encode (i : Instr) (x y : Byte) :
    ∃ b0 b1 b2, window (encode i ++ [x, y]) = some (b0, b1, b2) ∧ decode b0 b1 b2 = .ok i := by
  cases i with
  | hlt => exact ⟨_, _, _, rfl, decode_byte .hlt x y⟩
  | ldi a b => exact ⟨_, _, _, rfl, decode_byte .ldi a b⟩
  | prn a => exact ⟨_, _, _, rfl, decode_byte .prn a x⟩
  | mul a b => exact ⟨_, _, _, rfl, decode_byte .mul a b⟩

/-- Three bytes that decode begin with the encoding of what they decode to. -/
theorem encode_of_decode {b0 b1 b2 : Byte} {i : Instr} (h : decode b0 b1 b2 = .ok i) :
    encode i = [b0, b1, b2].take i.format.length := by
  rcases decode_cases b0 b1 b2 with ⟨op, rfl, hd⟩ | ⟨-, hd⟩
  · cases hd.symm.trans h
    exact encode_withOperands op b1 b2
  · cases hd.symm.trans h

/-- Settles O14: decoding undoes encoding, and encoding undoes a decoding that succeeds. -/
theorem decodeAndEncodeAgree : Obligations.DecodeAndEncodeAgree :=
  ⟨decode_window_encode, fun _ _ _ _ => encode_of_decode⟩

/-! ## The opcode map -/

/-- Settles O12: a byte of the map is its opcode's own, and any other has no dispatch entry. -/
theorem decoderIsTheOpcodeMap : Obligations.DecoderIsTheOpcodeMap := by
  intro b0 b1 b2
  rcases decode_cases b0 b1 b2 with ⟨op, rfl, hd⟩ | ⟨hn, hd⟩
  · rw [hd]
    cases op with
    | hlt | ldi | prn | mul => rfl
  · obtain ⟨hhlt, hldi, hprn, hmul⟩ := (dispatch_eq_none_iff b0).1 hn
    rw [hd, if_neg hhlt, if_neg hldi, if_neg hprn, if_neg hmul]

/-- Settles O13: each word begins with an opcode's own byte, or with one that has no dispatch entry. -/
theorem opcodeMapWordsDecode : Obligations.OpcodeMapWordsDecode :=
  ⟨decode_byte .hlt _ _, decode_byte .ldi _ _, decode_byte .ldi _ _, decode_byte .prn _ _, decode_byte .mul _ _,
    decode_of_not_dispatch rfl _ _, decode_of_not_dispatch rfl _ _⟩

/-- An instruction occupies at most the three bytes of the fetch window. -/
theorem length_encode_le (i : Instr) : (encode i).length ≤ 3 := by
  cases i with
  | hlt | ldi | prn | mul => simp [encode]

end Sys2Proof

namespace Sys2Proof.Machine

/-! ## What a cycle runs -/

/-- Settles O16: inside the fetch window the fetch answers what the decoder makes of the three bytes. -/
theorem stepRunsTheDecodedInstruction : Obligations.StepRunsTheDecodedInstruction := by
  intro i s hr hp hd
  have hfetch : fetchInstr s = .ok i := by simp [fetchInstr, fetchWindow_inside hp, hd]
  exact step_fetch_ok hr hfetch

/-- The state in which an instruction was stored at `pc` holds it there. -/
theorem holdsAtPc_writeBytes {s : State} (i : Instr) (hm : Memory.wf s.mem = true) (hp : s.pc.toNat ≤ 253) :
    State.HoldsAtPc { s with mem := writeBytes s.mem s.pc.toNat (encode i) } i := by
  have hlen := length_encode_le i
  exact fun k => writeBytes_read_inside hm k.isLt (by omega)

/-- Settles O15: the bytes lie where they were stored, and what is held at `pc` is what the cycle runs. -/
theorem storedInstructionIsTheOneRun : Obligations.StoredInstructionIsTheOneRun :=
  fun i _ hr hm hp => step_of_holdsAtPc hr hp (holdsAtPc_writeBytes i hm hp)

end Sys2Proof.Machine
end

section
/-! PROOFS of the invariant of reachable states (spec/10_state.md section 7): it holds at reset and after any load, and
every step keeps it. -/

namespace Sys2Proof.Machine

/-- A running machine with no fault meets the invariant when `pc` is in its range and memory is canonical. -/
theorem inv_of_running {s : State} (hr : s.running = true) (hf : s.fault = none) (hp : s.pc.toNat ≤ 256)
    (hm : Memory.wf s.mem = true) : s.Inv := by
  refine ⟨hp, fun hfault => absurd hf hfault, fun ⟨hhalted, _⟩ => ?_, hm⟩
  simp [hr] at hhalted

/-- Raising a fault keeps the invariant: the machine is halted, and not cleanly. -/
theorem raise_inv {s : State} (k : FaultKind) (hs : s.Inv) : (s.raise k).Inv := by
  obtain ⟨hp, -, -, hm⟩ := hs
  exact ⟨hp, fun _ => rfl, fun ⟨_, hclean⟩ => (nomatch hclean), hm⟩

/-- Every step keeps the invariant. A cycle that does not raise starts at 253 or below and adds at most 3; the fault
record stays empty, because the machine was running; and the only such cycle that halts is a `HLT`, which leaves `pc`
and memory. -/
theorem step_inv {s t : State} (hs : s.Inv) (h : step s = .next t) : t.Inv := by
  have hmem := step_mem h
  rcases step_raise_or_advance h with ⟨k, rfl⟩ | ⟨hfault, hp, hwidth⟩
  · exact raise_inv k hs
  · obtain ⟨-, hhalted, -, hm⟩ := hs
    have hrun := (step_next_cases h).1
    have hnone : s.fault = none := by
      by_contra hne
      simp [hhalted hne] at hrun
    have hm' : Memory.wf t.mem = true := hmem ▸ hm
    have hgoesOn (hgo : t.running = true) (hpc : t.pc.toNat ≤ 256) : t.Inv :=
      inv_of_running hgo (hfault.trans hnone) hpc hm'
    rcases hwidth with ⟨hb, hpc, -⟩ | ⟨-, hpc, hgo⟩ | ⟨-, hpc, hgo⟩ | ⟨-, hpc, hgo⟩
    · refine ⟨by omega, fun hne => absurd (hfault.trans hnone) hne, fun _ => ⟨?_, ?_⟩, hm'⟩
      · simp only [Config.memSize]
        omega
      · rw [hmem, hpc, hb]
    · exact hgoesOn hgo (by omega)
    · exact hgoesOn hgo (by omega)
    · exact hgoesOn hgo (by omega)

/-- Settles O5. -/
theorem stepKeepsInvariant : Obligations.StepKeepsInvariant := fun _ _ => step_inv

/-- Settles O4: the reset state is running, with no fault and an empty, so canonical, memory. -/
theorem resetMeetsInvariant : Obligations.ResetMeetsInvariant :=
  inv_of_running State.reset_running State.reset_fault (Nat.zero_le 256) Memory.wf_nil

/-- What every step keeps holds at the end of every run that starts with it. -/
theorem runsTo_of_step {P : State → Prop} (hstep : ∀ {s t}, P s → step s = .next t → P t) {n : Nat} {s t : State}
    (hs : P s) (h : RunsTo n s t) : P t := by
  induction n generalizing s with
  | zero => exact runsTo_zero.1 h ▸ hs
  | succ n ih =>
    obtain ⟨u, hu, hrun⟩ := runsTo_succ.1 h
    exact ih (hstep hs hu) hrun

/-- The first state of a run meets the invariant: a load changes memory alone, and keeps it canonical. -/
theorem firstState_inv {image : List Byte} {s : State} (h : firstState image = some s) : s.Inv := by
  have hm := State.load_wf h Memory.wf_nil
  obtain ⟨-, rfl⟩ := State.load_some h
  exact inv_of_running State.reset_running State.reset_fault (Nat.zero_le 256) hm

/-- Settles O6: the invariant holds first and every step keeps it; no run changes memory. -/
theorem reachableStatesMeetInvariant : Obligations.ReachableStatesMeetInvariant :=
  fun _ _ _ _ hfirst hrun => ⟨runsTo_of_step step_inv (firstState_inv hfirst) hrun, runsTo_mem hrun⟩

end Sys2Proof.Machine
end

section
/-! PROOFS of the canonical form of memory (log entry 6) and of what rests on it: equal readings mean equal data
(spec/20_memory.md section 1), every operation keeps the form, and the stack procedures undo each other
(spec/45_unwired.md section 2). -/

namespace Sys2Proof.Machine

/-! ## Equal readings -/

/-- A canonical memory whose first cell lies at `b` reads otherwise there than one that lists no address up to `b`. -/
theorem Memory.read_ne_of_wfFrom {lo b : Nat} {w : Byte} {m m' : Memory} (h : Memory.wfFrom lo ((b, w) :: m) = true)
    (h' : Memory.wfFrom (b + 1) m' = true) : Memory.read ((b, w) :: m) b ≠ Memory.read m' b := by
  obtain ⟨-, -, hw, -⟩ := Memory.wfFrom_cons.1 h
  rwa [Memory.read_below h' (Nat.lt_succ_self b), Memory.read_cons, if_pos rfl]

/-- The tails of two memories with the same first cell read alike if the memories do: neither tail lists its address. -/
theorem Memory.read_tail_eq {b : Nat} {w : Byte} {m m' : Memory} (hm : Memory.wfFrom (b + 1) m = true)
    (hm' : Memory.wfFrom (b + 1) m' = true)
    (h : ∀ a, a < 256 → Memory.read ((b, w) :: m) a = Memory.read ((b, w) :: m') a) :
    ∀ a, a < 256 → Memory.read m a = Memory.read m' a := by
  intro a ha
  rcases eq_or_ne a b with rfl | hne
  · rw [Memory.read_below hm (Nat.lt_succ_self a), Memory.read_below hm' (Nat.lt_succ_self a)]
  · simpa [Memory.read_cons, hne] using h a ha

/-- Canonical memories that read alike at every address are equal: their first cells agree, and so do their tails. -/
theorem Memory.eq_of_read_eq {lo : Nat} {m m' : Memory} (hm : Memory.wfFrom lo m = true)
    (hm' : Memory.wfFrom lo m' = true) (h : ∀ a, a < 256 → Memory.read m a = Memory.read m' a) : m = m' := by
  induction m generalizing lo m' with
  | nil =>
    cases m' with
    | nil => rfl
    | cons c m' =>
      obtain ⟨b, w⟩ := c
      obtain ⟨-, hb, -, -⟩ := Memory.wfFrom_cons.1 hm'
      exact absurd (h b hb).symm (Memory.read_ne_of_wfFrom hm' rfl)
  | cons c m ih =>
    obtain ⟨b, w⟩ := c
    obtain ⟨-, hb, hw, htail⟩ := Memory.wfFrom_cons.1 hm
    cases m' with
    | nil => exact absurd (h b hb) (Memory.read_ne_of_wfFrom hm rfl)
    | cons c' m' =>
      obtain ⟨b', w'⟩ := c'
      obtain ⟨-, hb', hw', htail'⟩ := Memory.wfFrom_cons.1 hm'
      rcases Nat.lt_trichotomy b b' with hlt | rfl | hgt
      · exact absurd (h b hb) (Memory.read_ne_of_wfFrom hm (Memory.wfFrom_cons.2 ⟨hlt, hb', hw', htail'⟩))
      · have hww : w = w' := by simpa [Memory.read_cons] using h b hb
        subst hww
        rw [ih htail htail' (Memory.read_tail_eq htail htail' h)]
      · exact absurd (h b' hb').symm (Memory.read_ne_of_wfFrom hm' (Memory.wfFrom_cons.2 ⟨hgt, hb, hw, htail⟩))

/-- Settles O9. -/
theorem canonicalMemoriesReadingAlikeAreEqual : Obligations.CanonicalMemoriesReadingAlikeAreEqual :=
  fun _ _ => Memory.eq_of_read_eq

/-! ## Every operation keeps the form -/

/-- `push` keeps the canonical form: its address is a byte. -/
theorem push_wf {v : Byte} {s t : State} (hm : Memory.wf s.mem = true) (h : push v s = .ok t) :
    Memory.wf t.mem = true := by
  cases (push_eq v s).symm.trans h
  exact Memory.write_wf v hm (readReg s.regs Config.spIndex).isLt

/-- `pop` keeps the canonical form: its address is a byte. -/
theorem pop_wf {v : Byte} {s t : State} (hm : Memory.wf s.mem = true) (h : pop s = .ok (v, t)) :
    Memory.wf t.mem = true := by
  cases (pop_eq s).symm.trans h
  exact Memory.write_wf 0 hm (readReg s.regs Config.spIndex + 1).isLt

/-- Settles O48, operation by operation. -/
theorem memoryOperationsKeepCanonicalForm : Obligations.MemoryOperationsKeepCanonicalForm := by
  refine ⟨fun m m' a v hm h => memWrite_wf h hm, fun s hm => ⟨fun image t h => State.load_wf h hm,
    fun v t => push_wf hm, fun v t => pop_wf hm, fun nbits w => writeBytes_wf _ _ hm, fun i t h => ?exec⟩⟩
  case exec => rwa [exec_mem h]

/-! ## Registers and the stack procedures -/

/-- Settles O10, by the rule of a read of the register written and the rule of a read of another. -/
theorem registerHoldsLastWrite : Obligations.RegisterHoldsLastWrite := by
  intro x i j v
  split
  case isTrue h => rw [h, readReg_writeReg_same]
  case isFalse h => exact readReg_writeReg_other x v h

/-- Writing a register's old value over any other restores the register file. -/
theorem writeReg_writeReg_readReg (x : Regs) (i : Fin 8) (v : Byte) :
    writeReg (writeReg x i v) i (readReg x i) = x := by
  simp [writeReg, readReg]

/-- Settles O45: the stack pointer is decremented and then incremented, so `pop` reads, and then zeroes, the very cell
`push` wrote. -/
theorem popUndoesPush : Obligations.PopUndoesPush := by
  intro v s t hm h
  have hwf := push_wf hm h
  cases (push_eq v s).symm.trans h
  have hpop := pop_eq { s with
    mem := Memory.write s.mem (readReg s.regs Config.spIndex).toNat v
    regs := writeReg s.regs Config.spIndex (readReg s.regs Config.spIndex - 1) }
  simp only [readReg_writeReg_same, BitVec.sub_add_cancel, Memory.read_write_same _ v hm] at hpop
  refine ⟨_, hpop, ?registers, ?cell, fun c hc => ?otherCells⟩
  case registers => exact writeReg_writeReg_readReg s.regs Config.spIndex _
  case cell => exact Memory.read_write_same _ 0 hwf
  case otherCells => exact (Memory.read_write_other 0 hc).trans (Memory.read_write_other v hc)

/-- Settles O46: the stack pointer is 0 at reset, so the byte goes to address 0 and the decrement wraps. -/
theorem firstPushFromResetWritesAddressZero : Obligations.FirstPushFromResetWritesAddressZero := by
  intro v
  have hpush := push_eq v State.reset
  rw [readReg_reset] at hpush
  refine ⟨_, hpush, ?cell, ?stackPointer⟩
  case cell => exact Memory.read_write_same 0 v Memory.wf_nil
  case stackPointer => exact congrArg BitVec.toNat (readReg_writeReg_same _ Config.spIndex _)

end Sys2Proof.Machine
end

section
/-! PROOFS of the frames of the instructions (spec/10_state.md section 1, spec/40_execution_cycle.md section 1): what an
instruction leaves unchanged, what its handler cannot see, and when it raises. -/

namespace Sys2Proof.Machine

/-! ## When an instruction raises -/

/-- `LDI` is well-formed when operand_a names a register. -/
theorem wellFormed_ldi_iff (a b : Byte) : (Instr.ldi a b).wellFormed = true ↔ a.toNat < 8 := namesRegister_iff a

/-- `PRN` is well-formed when operand_a names a register. -/
theorem wellFormed_prn_iff (a : Byte) : (Instr.prn a).wellFormed = true ↔ a.toNat < 8 := namesRegister_iff a

/-- `MUL` is well-formed when both operands name registers. -/
theorem wellFormed_mul_iff (a b : Byte) : (Instr.mul a b).wellFormed = true ↔ a.toNat < 8 ∧ b.toNat < 8 := by
  rw [Instr.wellFormed, Bool.and_eq_true, namesRegister_iff, namesRegister_iff]

/-- The handler of a well-formed instruction answers a result, that of any other a fault (70_reset_and_hazards.md
R170). -/
theorem handlerOf_cases (i : Instr) (x : Regs) :
    (i.wellFormed = true ∧ ∃ r, handlerOf i x = .ok r) ∨ (¬ i.wellFormed = true ∧ ∃ k, handlerOf i x = .error k) := by
  cases i with
  | hlt => exact .inl ⟨rfl, _, rfl⟩
  | ldi a b =>
    rw [wellFormed_ldi_iff]
    rcases ldiHandler_cases a b x with ⟨j, hj, e⟩ | ⟨ha, e⟩
    · exact .inl ⟨by omega, _, e⟩
    · exact .inr ⟨by omega, _, e⟩
  | prn a =>
    rw [wellFormed_prn_iff]
    rcases prnHandler_cases a x with ⟨j, hj, e⟩ | ⟨ha, e⟩
    · exact .inl ⟨by omega, _, e⟩
    · exact .inr ⟨by omega, _, e⟩
  | mul a b =>
    rw [wellFormed_mul_iff]
    rcases mulHandler_cases a b x with ⟨j, l, hj, hl, e⟩ | ⟨ha, e⟩ | ⟨ha, hb, e⟩
    · exact .inl ⟨by omega, _, e⟩
    · exact .inr ⟨by omega, _, e⟩
    · exact .inr ⟨by omega, _, e⟩

/-- A well-formed instruction keeps the fault record, and any other raises. -/
theorem exec_fault_cases {i : Instr} {s t : State} (h : exec i s = .next t) :
    (i.wellFormed = true ∧ t.fault = s.fault) ∨ (¬ i.wellFormed = true ∧ ∃ k, t = s.raise k) := by
  cases (exec_eq i s).symm.trans h
  rcases handlerOf_cases i s.regs with ⟨hw, r, e⟩ | ⟨hw, k, e⟩
  · exact .inl ⟨hw, by rw [e]; rfl⟩
  · exact .inr ⟨hw, k, by rw [e]; rfl⟩

/-- Settles O28: from a state with no fault, keeping the record leaves it empty and raising does not. -/
theorem raisesExactlyWhenIllFormed : Obligations.RaisesExactlyWhenIllFormed := by
  intro i s t hs h
  rcases exec_fault_cases h with ⟨hw, hf⟩ | ⟨hw, k, rfl⟩
  · simp [hw, hf, hs]
  · simp [hw]

/-- The fault record is kept by every instruction whose operands name registers. -/
theorem exec_fault_of_wellFormed {i : Instr} {s t : State} (hw : i.wellFormed = true) (h : exec i s = .next t) :
    t.fault = s.fault := by
  rcases exec_fault_cases h with ⟨-, hf⟩ | ⟨hill, -⟩
  · exact hf
  · exact absurd hw hill

/-! ## What an instruction leaves unchanged -/

/-- `PRN` raises, or appends one value and leaves the registers. -/
theorem exec_prn_frame {a : Byte} {s t : State} (h : exec (.prn a) s = .next t) :
    t.regs = s.regs ∧ ∃ ys, t.out = s.out ++ ys := by
  rcases regIndex_cases a with ⟨i, hi, -⟩ | ⟨ha, -⟩
  · cases (exec_prn_ok hi s).symm.trans h
    exact ⟨rfl, _, rfl⟩
  · cases (exec_prn_error ha s).symm.trans h
    exact ⟨rfl, [], (List.append_nil _).symm⟩

/-- Settles O25: `exec_hlt` gives the whole effect of `HLT`; for `PRN`, its frame, and that no instruction writes memory
or, when well-formed, the fault record. -/
theorem hltAndPrnFrame : Obligations.HltAndPrnFrame := by
  refine fun a s t => ⟨fun h => ?hlt, fun h => ?prn⟩
  case hlt =>
    cases (exec_hlt s).symm.trans h
    exact ⟨rfl, rfl, rfl, rfl, fun _ => rfl⟩
  case prn =>
    obtain ⟨hregs, hout⟩ := exec_prn_frame h
    refine ⟨fun _ => by rw [hregs], fun ha => ?prnFault, hout,
      fun _ => by rw [exec_mem h]⟩
    case prnFault => exact exec_fault_of_wellFormed ((wellFormed_prn_iff a).2 (Nat.lt_succ_of_le ha)) h

/-- `LDI` and `MUL` raise, or write the one register operand_a names and emit nothing. -/
theorem exec_ldi_or_mul_frame {a b : Byte} {s t : State}
    (h : exec (.ldi a b) s = .next t ∨ exec (.mul a b) s = .next t) :
    t.out = s.out ∧ (t.regs = s.regs ∨ ∃ (i : Fin 8) (v : Byte), a.toNat = i.val ∧ t.regs = writeReg s.regs i v) := by
  rcases h with h | h
  · rcases regIndex_cases a with ⟨i, hi, -⟩ | ⟨ha, -⟩
    · cases (exec_ldi_ok hi b s).symm.trans h
      exact ⟨rfl, .inr ⟨i, b, hi, rfl⟩⟩
    · cases (exec_ldi_error ha b s).symm.trans h
      exact ⟨rfl, .inl rfl⟩
  · rcases aluBinary_cases productMod256 s.regs a b with ⟨-, e⟩ | ⟨-, -, e⟩ | ⟨i, j, hi, hj, -⟩
    · cases (exec_mul_error e).symm.trans h
      exact ⟨rfl, .inl rfl⟩
    · cases (exec_mul_error e).symm.trans h
      exact ⟨rfl, .inl rfl⟩
    · cases (exec_mul_ok hi hj s).symm.trans h
      exact ⟨rfl, .inr ⟨i, _, hi, rfl⟩⟩

/-- Settles O26: a register operand_a does not name is not the one written, and a well-formed instruction keeps the
fault record. -/
theorem ldiAndMulFrame : Obligations.LdiAndMulFrame := by
  refine fun a b s t => ⟨fun h => ?frame, fun h ha => ?ldiFault, fun h ha hb => ?mulFault⟩
  case frame =>
    obtain ⟨hout, hregs⟩ := exec_ldi_or_mul_frame h
    refine ⟨fun r hr => ?_, hout, fun c => ?_⟩
    · rcases hregs with hregs | ⟨i, v, hi, hregs⟩
      · rw [hregs]
      · rw [hregs, readReg_writeReg_other _ _ (Fin.ne_of_val_ne (hi ▸ hr.symm))]
    · rw [h.elim exec_mem exec_mem]
  case ldiFault => exact exec_fault_of_wellFormed ((wellFormed_ldi_iff a b).2 (Nat.lt_succ_of_le ha)) h
  case mulFault =>
    exact exec_fault_of_wellFormed ((wellFormed_mul_iff a b).2 ⟨Nat.lt_succ_of_le ha, Nat.lt_succ_of_le hb⟩) h

/-! ## What a handler cannot see -/

/-- The end of a cycle moves `pc` by a distance that the handler's answer alone fixes, and takes memory as it is. -/
theorem finishCycle_withPcMem (s : State) (p : ProgramCounter) (m : Memory) (r : Except FaultKind HandlerResult) :
    finishCycle { s with pc := p, mem := m } r =
      { finishCycle s r with pc := p + ((finishCycle s r).pc - s.pc), mem := m } := by
  cases r with
  | error k => simp [State.raise]
  | ok r => simp [State.applyResult, BitVec.add_comm s.pc]

/-- Settles O27: both cycles end with the same handler's answer on the same registers. -/
theorem handlersSeeNeitherPcNorMemory : Obligations.HandlersSeeNeitherPcNorMemory := by
  intro i s t p m h
  cases (exec_eq i s).symm.trans h
  rw [exec_eq, finishCycle_withPcMem]

end Sys2Proof.Machine
end

section
/-! PROOFS of the cycle and the run (spec/40_execution_cycle.md sections 3 and 5): where the fetch ends, what one cycle
changes and reads, when it faults, and that every run ends. -/

namespace Sys2Proof.Machine

/-! ## The fetch and the load -/

/-- Settles O17: the fetch window passes up to 253, and from 254 on the cycle raises the greater of `pc` and 256. -/
theorem fetchWindowEndsAt253 : Obligations.FetchWindowEndsAt253 := by
  refine fun s => ⟨⟨fun ⟨w, hw⟩ => ?within, fun hp => ⟨_, fetchWindow_inside hp⟩⟩, fun hr hp hp' => ?at256,
    fun hr hp => ?beyond⟩
  case within =>
    by_contra hp
    cases (fetchWindow_outside (by omega)).symm.trans hw
  case at256 =>
    have hmax : max s.pc.toNat 256 = 256 := by omega
    rw [step_outside hr hp, hmax, State.raise]
  case beyond =>
    have hmax : max s.pc.toNat 256 = s.pc.toNat := by omega
    rw [step_outside hr (by omega), hmax, State.raise]

/-- Settles O3: an empty image leaves the reset state, whose cell 0 holds a byte without a dispatch entry. -/
theorem emptyImageFaultsOnZeroByte : Obligations.EmptyImageFaultsOnZeroByte :=
  ⟨_, firstState_of_fits (Nat.zero_le 256), State.reset_pc,
    step_fetch_error State.reset_running (fetchInstr_of_not_dispatch (Nat.zero_le 253) rfl)⟩

/-- The load port refuses an image longer than the address space, whatever the state is. -/
theorem State.load_of_too_long (s : State) {image : List Byte} (h : 256 < image.length) : s.load image = none :=
  if_neg (Nat.not_le.2 h)

/-- Settles O47: the first state of a run is the reset state loaded. -/
theorem longerImageIsRefused : Obligations.LongerImageIsRefused :=
  ⟨fun s _ => s.load_of_too_long, fun _ => State.reset.load_of_too_long⟩

/-! ## What one cycle changes -/

/-- A cycle leaves the registers alone, or it is a `LDI` or `MUL` that writes the one register it names first. -/
theorem step_regs_cases {s t : State} (h : step s = .next t) :
    t.regs = s.regs ∨ ∃ (r : Fin 8) (v : Byte), (Memory.read s.mem (s.pc.toNat + 1)).toNat = r.val ∧
      (Memory.read s.mem s.pc.toNat = 0x82 ∨ Memory.read s.mem s.pc.toNat = 0xA2) ∧
      t.regs = writeReg s.regs r v := by
  obtain ⟨-, ⟨-, rfl⟩ | ⟨-, -, rfl⟩ | ⟨-, -, rfl⟩ | ⟨-, hb, i, hi, rfl⟩ | ⟨-, -, _, -, rfl⟩ |
    ⟨-, hb, i, _, hi, -, rfl⟩ | ⟨-, -, -, rfl⟩ | ⟨-, -, -, -, rfl⟩⟩ := step_cases h
  · exact .inl rfl
  · exact .inl rfl
  · exact .inl rfl
  · exact .inr ⟨i, _, hi, .inl hb, rfl⟩
  · exact .inl rfl
  · exact .inr ⟨i, _, hi, .inr hb, rfl⟩
  · exact .inl rfl
  · exact .inl rfl

/-- Settles O19: memory, the registers and the output, each by its own rule. -/
theorem oneCycleChangesAtMostOneRegister : Obligations.OneCycleChangesAtMostOneRegister := by
  refine fun s t h => ⟨step_mem h, ?registers, ?output⟩
  case registers =>
    rcases step_regs_cases h with hregs | ⟨r, v, hr, hop, hregs⟩
    · exact .inl hregs
    · exact .inr ⟨r, hr, hop, fun q hq => by rw [hregs, readReg_writeReg_other s.regs v hq]⟩
  case output =>
    rcases step_out_cases h with hout | ⟨-, hop, i, -, hout⟩
    · exact .inl hout
    · exact .inr ⟨_, hop, hout⟩

/-! ## When a cycle faults -/

/-- Settles O35: a cycle that does not raise keeps the fault record. -/
theorem faultingCycleChangesOnlyRunningAndFault : Obligations.FaultingCycleChangesOnlyRunningAndFault := by
  intro s t h hne
  rcases step_raise_or_advance h with ⟨k, rfl⟩ | ⟨hfault, -⟩
  · rfl
  · exact absurd hfault hne

section Operands
variable {s : State} (hr : s.running = true) (hp : s.pc.toNat ≤ 253)
include hr hp

/-- Inside the fetch window an opcode's byte at `pc` makes the cycle that opcode's instruction. -/
theorem step_of_byte {op : Opcode} (hb : Memory.read s.mem s.pc.toNat = op.byte) :
    step s = exec (op.withOperands (Memory.read s.mem (s.pc.toNat + 1)) (Memory.read s.mem (s.pc.toNat + 2))) s :=
  step_fetch_ok hr (fetchInstr_of_byte hp hb)

/-- Each of the three instructions with operands raises on a bad operand_a. -/
theorem step_bad_operand_a
    (hb : Memory.read s.mem s.pc.toNat = 0x82 ∨ Memory.read s.mem s.pc.toNat = 0x47 ∨
      Memory.read s.mem s.pc.toNat = 0xA2)
    (ha : 8 ≤ (Memory.read s.mem (s.pc.toNat + 1)).toNat) :
    step s = .next (s.raise (.registerIndexOutOfRange (Memory.read s.mem (s.pc.toNat + 1)))) := by
  rcases hb with hb | hb | hb
  · exact (step_of_byte hr hp (op := .ldi) hb).trans (exec_ldi_error ha _ s)
  · exact (step_of_byte hr hp (op := .prn) hb).trans (exec_prn_error ha s)
  · exact (step_of_byte hr hp (op := .mul) hb).trans (exec_mul_error (aluBinary_error_first _ _ ha))

/-- `MUL` raises on a bad operand_b once operand_a is good. -/
theorem step_bad_operand_b (hb : Memory.read s.mem s.pc.toNat = 0xA2)
    (ha : (Memory.read s.mem (s.pc.toNat + 1)).toNat ≤ 7) (hb8 : 8 ≤ (Memory.read s.mem (s.pc.toNat + 2)).toNat) :
    step s = .next (s.raise (.registerIndexOutOfRange (Memory.read s.mem (s.pc.toNat + 2)))) :=
  (step_of_byte hr hp (op := .mul) hb).trans (exec_mul_error (aluBinary_error_second _ _ ha hb8))

end Operands

/-- Settles O33. A fault recorded where there was none is the datum of a raise, and `step_cases` lists the raises with
their conditions; conversely each condition makes the cycle raise. -/
theorem faultsAreExactlyThoseOfTheTable : Obligations.FaultsAreExactlyThoseOfTheTable := by
  refine fun s k hr hs => ⟨fun ⟨t, h, ht⟩ => ?recorded, fun htable => ?raised⟩
  case recorded =>
    have hkept : ¬ t.fault = s.fault := by simp [ht, hs]
    obtain ⟨-, ⟨hp, rfl⟩ | ⟨hp, hd, rfl⟩ | ⟨-, -, rfl⟩ | ⟨-, -, _, -, rfl⟩ | ⟨-, -, _, -, rfl⟩ |
      ⟨-, -, _, _, -, -, rfl⟩ | ⟨hp, hb, ha, rfl⟩ | ⟨hp, hb, ha, hb8, rfl⟩⟩ := step_cases h
    · cases ht; exact .inl ⟨hp, rfl⟩
    · cases ht; exact .inr (.inl ⟨hp, hd, rfl⟩)
    · exact absurd rfl hkept
    · exact absurd rfl hkept
    · exact absurd rfl hkept
    · exact absurd rfl hkept
    · cases ht; exact .inr (.inr (.inl ⟨hp, ha, hb, rfl⟩))
    · cases ht; exact .inr (.inr (.inr ⟨hp, Nat.le_of_lt_succ ha, hb8, hb, rfl⟩))
  case raised =>
    rcases htable with ⟨hp, rfl⟩ | ⟨hp, hd, rfl⟩ | ⟨hp, ha, hb, rfl⟩ | ⟨hp, ha, hb8, hb, rfl⟩
    · exact ⟨_, step_outside hr hp, rfl⟩
    · exact ⟨_, step_fetch_error hr (fetchInstr_of_not_dispatch hp hd), rfl⟩
    · exact ⟨_, step_bad_operand_a hr hp hb ha, rfl⟩
    · exact ⟨_, step_bad_operand_b hr hp hb ha hb8, rfl⟩

/-! ## What one cycle reads -/

/-- Steps 1 to 3 of a cycle answer alike over any memory that agrees at the three cells of the fetch window. -/
theorem fetchInstr_withMem {s : State} {m : Memory} (h0 : Memory.read m s.pc.toNat = Memory.read s.mem s.pc.toNat)
    (h1 : Memory.read m (s.pc.toNat + 1) = Memory.read s.mem (s.pc.toNat + 1))
    (h2 : Memory.read m (s.pc.toNat + 2) = Memory.read s.mem (s.pc.toNat + 2)) :
    fetchInstr { s with mem := m } = fetchInstr s := by
  have hwindow : fetchWindow { s with mem := m } = fetchWindow s := by
    rcases Nat.lt_or_ge s.pc.toNat 254 with hp | hp
    · have hp' : s.pc.toNat ≤ 253 := Nat.le_of_lt_succ hp
      simp [fetchWindow_inside (s := { s with mem := m }) hp', fetchWindow_inside hp', h0, h1, h2]
    · exact (fetchWindow_outside (s := { s with mem := m }) hp).trans (fetchWindow_outside hp).symm
  simp only [fetchInstr, hwindow]

/-- The end of a cycle takes memory as it is. -/
theorem finishCycle_withMem (s : State) (m : Memory) (r : Except FaultKind HandlerResult) :
    finishCycle { s with mem := m } r = { finishCycle s r with mem := m } := by
  cases r with
  | error k => rfl
  | ok r => rfl

/-- Settles O41: the fetch answers alike, no handler sees memory, and a raise leaves it as it is. -/
theorem cycleReadsOnlyThreeCells : Obligations.CycleReadsOnlyThreeCells := by
  intro s t m h0 h1 h2 h
  have hfetch := fetchInstr_withMem h0 h1 h2
  obtain ⟨hr, ⟨k, hf, rfl⟩ | ⟨i, hf, rfl⟩⟩ := step_next_cases h
  · exact step_fetch_error hr (hfetch.trans hf)
  · rw [step_fetch_ok (s := { s with mem := m }) hr (hfetch.trans hf), exec_eq, finishCycle_withMem]

/-! ## Runs -/

/-- Settles O37: without a cycle from the halted state, only the run of no cycle starts there. -/
theorem haltedStateHasNoCycle : Obligations.HaltedStateHasNoCycle := by
  refine fun s hr => ⟨step_halted hr, fun n t h => ?_⟩
  cases n with
  | zero => exact ⟨rfl, runsTo_zero.1 h⟩
  | succ n =>
    obtain ⟨u, hu, -⟩ := runsTo_succ.1 h
    cases (step_halted hr).symm.trans hu

/-- Two states that agree on everything but `out` run alike: each cycle keeps the agreement and emits the same
values. -/
theorem runsTo_sameMachine {n : Nat} {s s' t : State} (hs : SameMachine s s') (h : RunsTo n s t) :
    ∃ t' ys, RunsTo n s' t' ∧ SameMachine t t' ∧ t.out = s.out ++ ys ∧ t'.out = s'.out ++ ys := by
  induction n generalizing s s' with
  | zero =>
    cases runsTo_zero.1 h
    exact ⟨s', [], runsTo_zero.2 rfl, hs, (List.append_nil _).symm, (List.append_nil _).symm⟩
  | succ n ih =>
    obtain ⟨u, hu, hrun⟩ := runsTo_succ.1 h
    obtain ⟨u', hu', hsame, ys, hy, hy'⟩ := step_sameMachine hs hu
    obtain ⟨t', zs, hrun', hsame', hz, hz'⟩ := ih hsame hrun
    exact ⟨t', ys ++ zs, runsTo_succ.2 ⟨u', hu', hrun'⟩, hsame', by rw [hz, hy, List.append_assoc],
      by rw [hz', hy', List.append_assoc]⟩

/-- Settles O40. -/
theorem agreeingStatesRunAlike : Obligations.AgreeingStatesRunAlike := fun _ _ _ _ => runsTo_sameMachine

/-- A cycle that leaves the machine running is no `HLT` and no raise, so it adds 2 or 3 to `pc`. -/
theorem step_pc_of_running {s t : State} (h : step s = .next t) (ht : t.running = true) :
    s.pc.toNat ≤ 253 ∧ (t.pc.toNat = s.pc.toNat + 2 ∨ t.pc.toNat = s.pc.toNat + 3) := by
  rcases step_raise_or_advance h with ⟨k, rfl⟩ | ⟨-, hp, ⟨-, -, hstop⟩ | ⟨-, hpc, -⟩ | ⟨-, hpc, -⟩ | ⟨-, hpc, -⟩⟩
  · cases ht
  · cases hstop.symm.trans ht
  · exact ⟨hp, .inl hpc⟩
  · exact ⟨hp, .inr hpc⟩
  · exact ⟨hp, .inr hpc⟩

/-- `n + 1` cycles that leave the machine running start at least `2 n` below the end of the fetch window. -/
theorem pc_le_of_runsTo_running {n : Nat} {s t : State} (h : RunsTo (n + 1) s t) (ht : t.running = true) :
    s.pc.toNat + 2 * n ≤ 253 := by
  induction n generalizing s with
  | zero =>
    obtain ⟨u, hu, hrun⟩ := runsTo_succ.1 h
    cases runsTo_zero.1 hrun
    exact (step_pc_of_running hu ht).1
  | succ n ih =>
    obtain ⟨u, hu, hrun⟩ := runsTo_succ.1 h
    obtain ⟨v, hv, -⟩ := runsTo_succ.1 hrun
    have hpc := (step_pc_of_running hu (step_next_cases hv).1).2
    have := ih hrun
    omega

/-- At most 127 cycles leave the machine running. -/
theorem cycles_le_of_runsTo_running {n : Nat} {s t : State} (h : RunsTo n s t) (ht : t.running = true) : n ≤ 127 := by
  cases n with
  | zero => exact Nat.zero_le 127
  | succ n =>
    have := pc_le_of_runsTo_running h ht
    omega

/-- The running machine has a cycle. -/
theorem exists_step_of_running {s : State} (hr : s.running = true) : ∃ t, step s = .next t := by
  cases hf : fetchInstr s with
  | error k => exact ⟨_, step_fetch_error hr hf⟩
  | ok i => exact ⟨_, (step_fetch_ok hr hf).trans (exec_eq i s)⟩

/-- Within any number of cycles the machine halts, or else it is still running after all of them. -/
theorem halts_within_or_runs (n : Nat) (s : State) :
    (∃ m t, m ≤ n ∧ RunsTo m s t ∧ t.running = false) ∨ ∃ t, RunsTo n s t ∧ t.running = true := by
  induction n generalizing s with
  | zero =>
    cases hr : s.running with
    | false => exact .inl ⟨0, s, Nat.le_refl 0, runsTo_zero.2 rfl, hr⟩
    | true => exact .inr ⟨s, runsTo_zero.2 rfl, hr⟩
  | succ n ih =>
    cases hr : s.running with
    | false => exact .inl ⟨0, s, Nat.zero_le _, runsTo_zero.2 rfl, hr⟩
    | true =>
      obtain ⟨u, hu⟩ := exists_step_of_running hr
      rcases ih u with ⟨m, t, hm, hrun, ht⟩ | ⟨t, hrun, ht⟩
      · exact .inl ⟨m + 1, t, Nat.succ_le_succ hm, runsTo_succ.2 ⟨u, hu, hrun⟩, ht⟩
      · exact .inr ⟨t, runsTo_succ.2 ⟨u, hu, hrun⟩, ht⟩

/-- Settles O38: 128 cycles cannot all leave the machine running, because each adds at least 2 to `pc` and starts inside
the fetch window. -/
theorem everyRunEndsWithin128Cycles : Obligations.EveryRunEndsWithin128Cycles := by
  refine ⟨fun s => ?halts, fun n s t => cycles_le_of_runsTo_running, fun s t => step_pc_of_running⟩
  case halts =>
    rcases halts_within_or_runs 128 s with hhalts | ⟨t, hrun, ht⟩
    · exact hhalts
    · exact absurd (cycles_le_of_runsTo_running hrun ht) (by decide)

end Sys2Proof.Machine
end
